-- ==== Sys2Proof/Word.lean ====
section
/-! DEFINITION. The widths of U256AU's data (spec/00_scope.md R10, R11): the 256-bit value, the 64-bit scalar, the
32-bit word, the 16-bit immediate and the 4-bit register number. -/

namespace Sys2Proof

/-- A FixedWidthUint256, an integer in [0, 2^256) (R10, R19). -/
abbrev Value := BitVec 256

/-- The contents of a scalar register, 64 bits, unsigned (R22). -/
abbrev Scalar := BitVec 64

/-- A 32-bit word: a limb of a value, a command word, one host access (R10, R43, R53). -/
abbrev Word := BitVec 32

/-- The 16-bit unsigned immediate (R56). -/
abbrev Imm16 := BitVec 16

/-- The number of a value register U0..U15: a 4-bit field, every value of which names a register (R56). -/
abbrev UReg := BitVec 4

/-- The number of a scalar register S0..S15: a 4-bit field, every value of which names a register (R56). -/
abbrev SReg := BitVec 4

/-- A byte offset in the 1024-byte register window (R38; "a 10-bit byte offset", R132). -/
abbrev Offset := BitVec 10

end Sys2Proof
end

