-- ==== Sys2Proof/Config.lean ====
section
/-! DEFINITION. What an implementation of U256AU fixes (spec/00_scope.md R11) and what the spec leaves free. An `opaque`
constant has no body: no proof can see its value, so a statement holds whatever it is. -/

namespace Sys2Proof.Config

/-- The ID register, the ASCII bytes "U256" (R31). -/
def idValue : Word := 0x55323536#32

/-- The VERSION register: U256AU version 1 (R32). -/
def versionValue : Word := 0x00000001#32

/-- WINDOW_SIZE: the bytes of the register window (R11, R38). -/
def windowSize : Nat := 1024

/-- UNIT_BASE divided by 1024: the platform chooses it, and no rule depends on it (R11, D29; log 7). -/
opaque unitBlock : Nat

/-- UNIT_BASE, the host address of offset 0, aligned to 1024 (R38, D29; log 7). -/
def unitBase : Nat := windowSize * unitBlock

/-- FREE VALUE (log 2): how many STATUS reads return BUSY = 1 before the n-th accepted command completes. The spec leaves
the latency open and allows 0 (R131); that it is a finite number is the weak fairness of R128 (log 15). -/
opaque latency : Nat → Nat

end Sys2Proof.Config
end

