-- ==== Sys2Proof/Syntax.lean ====
section
/-! DEFINITION. The 23 commands of U256AU (spec/30_encoding.md R57), their operand types, and a line of the assembler's
syntax (R62). The operands of a constructor stand in the assembler's order: destination, first source, second source or
immediate. -/

namespace Sys2Proof

/-- One command: one constructor per row of the opcode map (R57, spec/opcode_table.json). -/
inductive Instr where
  /-- `SHL Ud, Ua, Sb` (R67). -/
  | shl (d a : UReg) (b : SReg)
  /-- `SHR Ud, Ua, Sb` (R68). -/
  | shr (d a : UReg) (b : SReg)
  /-- `SHLI Ud, Ua, imm16` (R69). -/
  | shli (d a : UReg) (imm : Imm16)
  /-- `SHRI Ud, Ua, imm16` (R70). -/
  | shri (d a : UReg) (imm : Imm16)
  /-- `MUL Ud, Ua, Ub` (R74). -/
  | mul (d a b : UReg)
  /-- `MULW Ud, Ua, Sb` (R75). -/
  | mulw (d a : UReg) (b : SReg)
  /-- `MULWI Ud, Ua, imm16` (R76). -/
  | mulwi (d a : UReg) (imm : Imm16)
  /-- `DIV Ud, Ua, Ub` (R80). -/
  | div (d a b : UReg)
  /-- `CMP Sd, Ua, Ub` (R84). -/
  | cmp (d : SReg) (a b : UReg)
  /-- `EQS Sd, Ua, Sb` (R85). -/
  | eqs (d : SReg) (a : UReg) (b : SReg)
  /-- `BITLEN Sd, Ua` (R86). -/
  | bitlen (d : SReg) (a : UReg)
  /-- `TODBL Sd, Ua` (R89). -/
  | todbl (d : SReg) (a : UReg)
  /-- `MOVU Ud, Ua` (R90). -/
  | movu (d a : UReg)
  /-- `SETU Ud, Sa` (R91). -/
  | setu (d : UReg) (a : SReg)
  /-- `GETLO Sd, Ua` (R92). -/
  | getlo (d : SReg) (a : UReg)
  /-- `SLI Sd, imm16` (R93). -/
  | sli (d : SReg) (imm : Imm16)
  /-- `SLIH Sd, imm16` (R94). -/
  | slih (d : SReg) (imm : Imm16)
  /-- `ADD Ud, Ua, Ub` (R97). -/
  | add (d a b : UReg)
  /-- `SUB Ud, Ua, Ub` (R98). -/
  | sub (d a b : UReg)
  /-- `NOT Ud, Ua` (R99). -/
  | not (d a : UReg)
  /-- `CDEC Ud, Sa` (R107). -/
  | cdec (d : UReg) (a : SReg)
  /-- `CENC Sd, Ua, Sb` (R108). -/
  | cenc (d : SReg) (a : UReg) (b : SReg)
  /-- `RDFL Sd` (R109). -/
  | rdfl (d : SReg)
deriving DecidableEq, Repr

/-- The name of a row of the opcode map (R57). -/
inductive Mnemonic where
  | shl | shr | shli | shri | mul | mulw | mulwi | div | cmp | eqs | bitlen | todbl | movu | setu | getlo | sli | slih
  | add | sub | not | cdec | cenc | rdfl
deriving DecidableEq, Repr

/-- The row a command belongs to. -/
def Instr.mnemonic : Instr → Mnemonic
  | .shl _ _ _ => .shl
  | .shr _ _ _ => .shr
  | .shli _ _ _ => .shli
  | .shri _ _ _ => .shri
  | .mul _ _ _ => .mul
  | .mulw _ _ _ => .mulw
  | .mulwi _ _ _ => .mulwi
  | .div _ _ _ => .div
  | .cmp _ _ _ => .cmp
  | .eqs _ _ _ => .eqs
  | .bitlen _ _ => .bitlen
  | .todbl _ _ => .todbl
  | .movu _ _ => .movu
  | .setu _ _ => .setu
  | .getlo _ _ => .getlo
  | .sli _ _ => .sli
  | .slih _ _ => .slih
  | .add _ _ _ => .add
  | .sub _ _ _ => .sub
  | .not _ _ => .not
  | .cdec _ _ => .cdec
  | .cenc _ _ _ => .cenc
  | .rdfl _ => .rdfl

/-- The type of an operand: a value register, a scalar register or an immediate (R57). -/
inductive OperandType where
  | u | s | imm
deriving DecidableEq, Repr

/-- The operand columns of the opcode map (R57), destination first. -/
def Mnemonic.operandTypes : Mnemonic → List OperandType
  | .shl => [.u, .u, .s]
  | .shr => [.u, .u, .s]
  | .shli => [.u, .u, .imm]
  | .shri => [.u, .u, .imm]
  | .mul => [.u, .u, .u]
  | .mulw => [.u, .u, .s]
  | .mulwi => [.u, .u, .imm]
  | .div => [.u, .u, .u]
  | .cmp => [.s, .u, .u]
  | .eqs => [.s, .u, .s]
  | .bitlen => [.s, .u]
  | .todbl => [.s, .u]
  | .movu => [.u, .u]
  | .setu => [.u, .s]
  | .getlo => [.s, .u]
  | .sli => [.s, .imm]
  | .slih => [.s, .imm]
  | .add => [.u, .u, .u]
  | .sub => [.u, .u, .u]
  | .not => [.u, .u]
  | .cdec => [.u, .s]
  | .cenc => [.s, .u, .s]
  | .rdfl => [.s]

/-- An operand as the assembler's text gives it: a letter with a number, or a number (R62). Any number can be written;
`AsmLine.check` says which are operands. -/
inductive AsmOperand where
  | u (n : Nat)
  | s (n : Nat)
  | imm (n : Nat)
deriving DecidableEq, Repr

/-- A line `MNEMONIC operands` of the assembler's syntax (R62). -/
structure AsmLine where
  mnemonic : Mnemonic
  operands : List AsmOperand
deriving DecidableEq, Repr

/-- The operands of a command in the assembler's order (R62). -/
def Instr.operands : Instr → List AsmOperand
  | .shl d a b => [.u d.toNat, .u a.toNat, .s b.toNat]
  | .shr d a b => [.u d.toNat, .u a.toNat, .s b.toNat]
  | .shli d a i => [.u d.toNat, .u a.toNat, .imm i.toNat]
  | .shri d a i => [.u d.toNat, .u a.toNat, .imm i.toNat]
  | .mul d a b => [.u d.toNat, .u a.toNat, .u b.toNat]
  | .mulw d a b => [.u d.toNat, .u a.toNat, .s b.toNat]
  | .mulwi d a i => [.u d.toNat, .u a.toNat, .imm i.toNat]
  | .div d a b => [.u d.toNat, .u a.toNat, .u b.toNat]
  | .cmp d a b => [.s d.toNat, .u a.toNat, .u b.toNat]
  | .eqs d a b => [.s d.toNat, .u a.toNat, .s b.toNat]
  | .bitlen d a => [.s d.toNat, .u a.toNat]
  | .todbl d a => [.s d.toNat, .u a.toNat]
  | .movu d a => [.u d.toNat, .u a.toNat]
  | .setu d a => [.u d.toNat, .s a.toNat]
  | .getlo d a => [.s d.toNat, .u a.toNat]
  | .sli d i => [.s d.toNat, .imm i.toNat]
  | .slih d i => [.s d.toNat, .imm i.toNat]
  | .add d a b => [.u d.toNat, .u a.toNat, .u b.toNat]
  | .sub d a b => [.u d.toNat, .u a.toNat, .u b.toNat]
  | .not d a => [.u d.toNat, .u a.toNat]
  | .cdec d a => [.u d.toNat, .s a.toNat]
  | .cenc d a b => [.s d.toNat, .u a.toNat, .s b.toNat]
  | .rdfl d => [.s d.toNat]

/-- The assembler line of a command (R62). -/
def Instr.asm (i : Instr) : AsmLine := ⟨i.mnemonic, i.operands⟩

end Sys2Proof
end

