-- ==== Sys2Proof/WellFormed.lean ====
section
/-! DEFINITION. When an assembler line is a command (spec/30_encoding.md R62): as many operands as its row has, each with
the letter of its column, register numbers 0..15, immediates 0..65535. The fields of `Instr` are exactly as wide as the
encoding's (R54), so every `Instr` is well formed (`Sys2Proof.Laws.instr_wellFormed`). -/

namespace Sys2Proof

/-- Why an assembler line is no command (R62). -/
inductive AsmError where
  /-- the row has another number of operands -/
  | operandCount
  /-- "the letter must match the operand type of the row" -/
  | operandLetter
  /-- "Registers are written U0..U15 and S0..S15" -/
  | registerRange
  /-- "Immediates ... must lie in 0..65535" -/
  | immediateRange
  /-- the text names no row of the opcode map -/
  | unknownMnemonic
  /-- the text of an operand is neither a register nor a number -/
  | badOperand
deriving DecidableEq, Repr

/-- One operand against its column. -/
def AsmOperand.check : OperandType → AsmOperand → Except AsmError Unit
  | .u, .u n => if n < 16 then .ok () else .error .registerRange
  | .s, .s n => if n < 16 then .ok () else .error .registerRange
  | .imm, .imm n => if n < 65536 then .ok () else .error .immediateRange
  | _, _ => .error .operandLetter

/-- The operands of a line against the columns of its row, in order. -/
def checkOperands : List OperandType → List AsmOperand → Except AsmError Unit
  | [], [] => .ok ()
  | t :: ts, o :: os =>
    match AsmOperand.check t o with
    | .ok _ => checkOperands ts os
    | .error e => .error e
  | _, _ => .error .operandCount

/-- The checks of R62 on one line. -/
def AsmLine.check (l : AsmLine) : Except AsmError Unit := checkOperands l.mnemonic.operandTypes l.operands

/-- A line that passes every check of R62. -/
abbrev AsmLine.WellFormed (l : AsmLine) : Prop := l.check.toOption = some ()

/-- A command whose own line passes every check of R62. -/
abbrev Instr.WellFormed (i : Instr) : Prop := i.asm.WellFormed

end Sys2Proof
end

