-- ==== Sys2Proof/Decode.lean ====
section
/-! DEFINITION. The command word (spec/30_encoding.md R53 to R59): fields, formats, the opcode map as a table, the decoder,
which is total on 32-bit words and rejects by name, and the encoder. -/

namespace Sys2Proof

/-- The five formats (R55). -/
inductive Format where
  | rrr | rr | ri | di | d
deriving DecidableEq, Repr

/-- The mask of a format, the set of its op and SBZ bits (R55). -/
def Format.mask : Format → Word
  | .rrr => 0xFFF000FF#32
  | .rr => 0xFFFF00FF#32
  | .ri => 0x000000FF#32
  | .di => 0x0000F0FF#32
  | .d => 0xFFFFF0FF#32

/-- The op column of the opcode map (R57). -/
def Mnemonic.op : Mnemonic → BitVec 8
  | .shl => 0x10#8
  | .shr => 0x11#8
  | .shli => 0x12#8
  | .shri => 0x13#8
  | .mul => 0x20#8
  | .mulw => 0x21#8
  | .mulwi => 0x22#8
  | .div => 0x30#8
  | .cmp => 0x40#8
  | .eqs => 0x41#8
  | .bitlen => 0x42#8
  | .todbl => 0x50#8
  | .movu => 0x51#8
  | .setu => 0x52#8
  | .getlo => 0x53#8
  | .sli => 0x54#8
  | .slih => 0x55#8
  | .add => 0x60#8
  | .sub => 0x61#8
  | .not => 0x62#8
  | .cdec => 0x70#8
  | .cenc => 0x71#8
  | .rdfl => 0x72#8

/-- The format column of the opcode map (R57). -/
def Mnemonic.format : Mnemonic → Format
  | .shl => .rrr
  | .shr => .rrr
  | .shli => .ri
  | .shri => .ri
  | .mul => .rrr
  | .mulw => .rrr
  | .mulwi => .ri
  | .div => .rrr
  | .cmp => .rrr
  | .eqs => .rrr
  | .bitlen => .rr
  | .todbl => .rr
  | .movu => .rr
  | .setu => .rr
  | .getlo => .rr
  | .sli => .di
  | .slih => .di
  | .add => .rrr
  | .sub => .rrr
  | .not => .rr
  | .cdec => .rr
  | .cenc => .rrr
  | .rdfl => .d

/-- The rows of the opcode map, in the table's order (R57). -/
def mnemonics : List Mnemonic :=
  [.shl, .shr, .shli, .shri, .mul, .mulw, .mulwi, .div, .cmp, .eqs, .bitlen, .todbl, .movu, .setu, .getlo, .sli, .slih,
   .add, .sub, .not, .cdec, .cenc, .rdfl]

/-- The match column of the opcode map: the word with every non-fixed field zero (R57). -/
def Mnemonic.pattern (m : Mnemonic) : Word := m.op.setWidth 32

/-- The mask column of the opcode map (R57). -/
def Mnemonic.mask (m : Mnemonic) : Word := m.format.mask

/-- The row `m` matches the word `w` (R55, R59). -/
abbrev Mnemonic.Matches (m : Mnemonic) (w : Word) : Prop := w &&& m.mask = m.pattern

/-! ### Fields (R54) -/

/-- op = cmd[7:0] (R54). -/
def fieldOp (w : Word) : BitVec 8 := w.extractLsb' 0 8

/-- rd = cmd[11:8] (R54). -/
def fieldRd (w : Word) : BitVec 4 := w.extractLsb' 8 4

/-- ra = cmd[15:12] (R54). -/
def fieldRa (w : Word) : BitVec 4 := w.extractLsb' 12 4

/-- rb = cmd[19:16] (R54). -/
def fieldRb (w : Word) : BitVec 4 := w.extractLsb' 16 4

/-- imm16 = cmd[31:16] (R54, R56). -/
def fieldImm (w : Word) : Imm16 := w.extractLsb' 16 16

/-! ### The decoder (R58, R59) -/

/-- Why a word is no command: the two kinds of illegal word (R58). -/
inductive Illegal where
  /-- "a reserved opcode value" -/
  | reservedOpcode (op : BitVec 8)
  /-- "a defined op value with a nonzero SBZ bit in its format" -/
  | nonzeroSbz (op : BitVec 8)
deriving DecidableEq, Repr

/-- The SBZ bits of a word in a format are all zero (R55): bits 31..20, 31..16, none, 15..12, 31..12. -/
def sbzZero (f : Format) (w : Word) : Bool :=
  match f with
  | .rrr => w.extractLsb' 20 12 == 0#12
  | .rr => w.extractLsb' 16 16 == 0#16
  | .ri => true
  | .di => w.extractLsb' 12 4 == 0#4
  | .d => w.extractLsb' 12 20 == 0#20

/-- The must-be-zero check of a format, after the opcode has been looked up (R55). -/
def checked (f : Format) (w : Word) (i : Instr) : Except Illegal Instr :=
  if sbzZero f w then .ok i else .error (.nonzeroSbz (fieldOp w))

/-- Decode(w) (R59): a lookup of the low byte followed by the must-be-zero check. -/
def decode (w : Word) : Except Illegal Instr :=
  match (fieldOp w).toNat with
  | 0x10 => checked .rrr w (.shl (fieldRd w) (fieldRa w) (fieldRb w))
  | 0x11 => checked .rrr w (.shr (fieldRd w) (fieldRa w) (fieldRb w))
  | 0x12 => checked .ri w (.shli (fieldRd w) (fieldRa w) (fieldImm w))
  | 0x13 => checked .ri w (.shri (fieldRd w) (fieldRa w) (fieldImm w))
  | 0x20 => checked .rrr w (.mul (fieldRd w) (fieldRa w) (fieldRb w))
  | 0x21 => checked .rrr w (.mulw (fieldRd w) (fieldRa w) (fieldRb w))
  | 0x22 => checked .ri w (.mulwi (fieldRd w) (fieldRa w) (fieldImm w))
  | 0x30 => checked .rrr w (.div (fieldRd w) (fieldRa w) (fieldRb w))
  | 0x40 => checked .rrr w (.cmp (fieldRd w) (fieldRa w) (fieldRb w))
  | 0x41 => checked .rrr w (.eqs (fieldRd w) (fieldRa w) (fieldRb w))
  | 0x42 => checked .rr w (.bitlen (fieldRd w) (fieldRa w))
  | 0x50 => checked .rr w (.todbl (fieldRd w) (fieldRa w))
  | 0x51 => checked .rr w (.movu (fieldRd w) (fieldRa w))
  | 0x52 => checked .rr w (.setu (fieldRd w) (fieldRa w))
  | 0x53 => checked .rr w (.getlo (fieldRd w) (fieldRa w))
  | 0x54 => checked .di w (.sli (fieldRd w) (fieldImm w))
  | 0x55 => checked .di w (.slih (fieldRd w) (fieldImm w))
  | 0x60 => checked .rrr w (.add (fieldRd w) (fieldRa w) (fieldRb w))
  | 0x61 => checked .rrr w (.sub (fieldRd w) (fieldRa w) (fieldRb w))
  | 0x62 => checked .rr w (.not (fieldRd w) (fieldRa w))
  | 0x70 => checked .rr w (.cdec (fieldRd w) (fieldRa w))
  | 0x71 => checked .rrr w (.cenc (fieldRd w) (fieldRa w) (fieldRb w))
  | 0x72 => checked .d w (.rdfl (fieldRd w))
  | _ => .error (.reservedOpcode (fieldOp w))

/-- The command in the low `nbits` bits of `w`, every bit above them 0 (log 17): a command is one 32-bit word (R53). -/
def decodeTableWord (nbits w : Nat) : Option Instr :=
  if nbits ≤ 32 then (decode (BitVec.ofNat 32 (w % 2 ^ nbits))).toOption else none

/-! ### The encoder (R55, R57) -/

/-- Format RRR: rb in bits 19..16, ra in 15..12, rd in 11..8, op in 7..0, the rest zero (R55). -/
def encodeRRR (m : Mnemonic) (rd ra rb : BitVec 4) : Word :=
  BitVec.ofNat 32 (rb.toNat * 2 ^ 16 + ra.toNat * 2 ^ 12 + rd.toNat * 2 ^ 8 + m.op.toNat)

/-- Format RR: ra in bits 15..12, rd in 11..8, op in 7..0, the rest zero (R55). -/
def encodeRR (m : Mnemonic) (rd ra : BitVec 4) : Word :=
  BitVec.ofNat 32 (ra.toNat * 2 ^ 12 + rd.toNat * 2 ^ 8 + m.op.toNat)

/-- Format RI: imm16 in bits 31..16, ra in 15..12, rd in 11..8, op in 7..0 (R55). -/
def encodeRI (m : Mnemonic) (rd ra : BitVec 4) (imm : Imm16) : Word :=
  BitVec.ofNat 32 (imm.toNat * 2 ^ 16 + ra.toNat * 2 ^ 12 + rd.toNat * 2 ^ 8 + m.op.toNat)

/-- Format DI: imm16 in bits 31..16, rd in 11..8, op in 7..0, the rest zero (R55). -/
def encodeDI (m : Mnemonic) (rd : BitVec 4) (imm : Imm16) : Word :=
  BitVec.ofNat 32 (imm.toNat * 2 ^ 16 + rd.toNat * 2 ^ 8 + m.op.toNat)

/-- Format D: rd in bits 11..8, op in 7..0, the rest zero (R55). -/
def encodeD (m : Mnemonic) (rd : BitVec 4) : Word := BitVec.ofNat 32 (rd.toNat * 2 ^ 8 + m.op.toNat)

/-- The word of a command (R55, R57). -/
def encode : Instr → Word
  | .shl d a b => encodeRRR .shl d a b
  | .shr d a b => encodeRRR .shr d a b
  | .shli d a imm => encodeRI .shli d a imm
  | .shri d a imm => encodeRI .shri d a imm
  | .mul d a b => encodeRRR .mul d a b
  | .mulw d a b => encodeRRR .mulw d a b
  | .mulwi d a imm => encodeRI .mulwi d a imm
  | .div d a b => encodeRRR .div d a b
  | .cmp d a b => encodeRRR .cmp d a b
  | .eqs d a b => encodeRRR .eqs d a b
  | .bitlen d a => encodeRR .bitlen d a
  | .todbl d a => encodeRR .todbl d a
  | .movu d a => encodeRR .movu d a
  | .setu d a => encodeRR .setu d a
  | .getlo d a => encodeRR .getlo d a
  | .sli d imm => encodeDI .sli d imm
  | .slih d imm => encodeDI .slih d imm
  | .add d a b => encodeRRR .add d a b
  | .sub d a b => encodeRRR .sub d a b
  | .not d a => encodeRR .not d a
  | .cdec d a => encodeRR .cdec d a
  | .cenc d a b => encodeRRR .cenc d a b
  | .rdfl d => encodeD .rdfl d

end Sys2Proof
end

