-- ==== Sys2Proof/Machine/State.lean ====
section
/-! DEFINITION. The state of U256AU: the record of spec/10_state.md R20, a type of its own, and beside it the model's own
record of the host's side and the free latency. -/

namespace Sys2Proof.Machine

/-- The two exceptions (spec/60_exceptions.md R110). Both are taken: they write the error state and stop nothing. -/
inductive UnitException where
  /-- the divisor of DIV is 0 (R111) -/
  | divideByZero
  /-- the pending word matches no row of the opcode table (R112) -/
  | illegalCommand
deriving DecidableEq, Repr

/-- Which agent makes an access (R122). -/
inductive Agent where
  | host | other
deriving DecidableEq, Repr

/-- A read of the window, or a write of a 32-bit value (R15). -/
inductive AccessKind where
  | read
  | write (v : Word)
deriving DecidableEq, Repr

/-- One access to the register window: `MemRead(off, bytes)` or `MemWrite(off, bytes, v)` (R15). Only 4 bytes at a multiple
of 4 have a meaning (R43); any other access is refused before its value matters. -/
structure Access where
  agent : Agent
  kind : AccessKind
  off : Offset
  bytes : Nat
deriving DecidableEq, Repr

/-- `MemRead(off, 4)` by the host (R15). -/
def memRead (off : Offset) : Access := ⟨.host, .read, off, 4⟩

/-- `MemWrite(off, 4, v)` by the host (R15). -/
def memWrite (off : Offset) (v : Word) : Access := ⟨.host, .write v, off, 4⟩

/-- What the outside does next. -/
inductive HostEvent where
  /-- one access to the window (R48) -/
  | access (a : Access)
  /-- the host loop WaitIdle: read STATUS until bit 0 is 0 (R128; log 5) -/
  | waitIdle
  /-- the power-on reset input (R125, R132; log 6) -/
  | powerOnReset
deriving DecidableEq, Repr

/-- The complete architectural state of U256AU: exactly the ten fields of R20, in its order. "Nothing else is state" (R20). -/
structure UnitState where
  /-- U0..U15 (R21) -/
  regsU : Vector Value 16
  /-- S0..S15 (R22) -/
  regsS : Vector Scalar 16
  /-- FLAGS.NEG (R24) -/
  neg : Bool
  /-- FLAGS.OVF (R24) -/
  ovf : Bool
  /-- STATUS.BUSY (R26) -/
  busy : Bool
  /-- STATUS.ERR (R26) -/
  err : Bool
  /-- STATUS.ERRCODE (R27) -/
  errcode : BitVec 4
  /-- ERRCMD (R28) -/
  errcmd : Word
  /-- LASTCMD (R29) -/
  lastcmd : Word
  /-- PENDING (R34) -/
  pending : Option Word
deriving DecidableEq, Repr

/-- MODEL'S OWN: what a step reads and writes beside the unit's state. R20 and R23 make the host's program a parameter on the
host's side; a step that is a function of one state carries it, and the free latency, here (log 1). -/
structure HostSide where
  /-- What the host does from here on, in order: its program and its position in it (R17, R23; log 1). -/
  inputs : List HostEvent
  /-- The values the host's reads returned, oldest first (R15, R47; log 4). -/
  replies : List Word
  /-- The host is in the interval of the BUSY duty (R127; log 3). -/
  awaiting : Bool
  /-- How many more STATUS reads may return BUSY = 1 before the completion (R131; log 2). -/
  wait : Nat
  /-- How many commands have been accepted, where the next latency is drawn (log 2). -/
  accepted : Nat
deriving DecidableEq, Repr

/-- What a step acts on: the unit's state (R20) and beside it the host's side. `State.toUnitState` is the record of R20. -/
structure State extends UnitState, HostSide
deriving DecidableEq, Repr

/-- No fault exists: both exceptions of the unit are taken and the unit never stops (R110, R114; log 16). -/
inductive Fault
deriving DecidableEq, Repr

/-- Why the model has no step. -/
inductive Refusal where
  /-- Raised by the dispatcher for an instruction without a meaning; none is left. Safe: the model stops. -/
  | notModelled (mnemonic : String)
  /-- Raised by an access that is not 32 bits wide (R43, R129). Safe: the spec gives it no meaning. -/
  | accessWidth
  /-- Raised by an access that is not at a multiple of 4 (R43, R129). Safe: the spec gives it no meaning. -/
  | accessMisaligned
  /-- Raised by an access at 0x29C..0x3FF (R44, R129). Safe: the spec gives it no meaning. -/
  | accessReserved
  /-- Raised by any access but a STATUS read in the interval of the BUSY duty (R127, R129). Safe: the spec gives it no
  meaning. -/
  | accessWhileBusy
  /-- Raised by an access of a second agent (R122, R129). Safe: the spec gives it no meaning. -/
  | accessSecondAgent
deriving DecidableEq, Repr

/-- The outcome of a step or of a command. -/
abbrev Result := Host.Outcome State Fault Refusal

/-- Every piece of the unit's state at its value of R37 (R125). -/
def UnitState.reset : UnitState where
  regsU := Vector.replicate 16 0#256
  regsS := Vector.replicate 16 0#64
  neg := false
  ovf := false
  busy := false
  err := false
  errcode := 0#4
  errcmd := 0#32
  lastcmd := 0#32
  pending := none

/-- The host has done nothing and has nothing to do (DESIGN CHOICE, log 13). -/
def HostSide.reset : HostSide where
  inputs := []
  replies := []
  awaiting := false
  wait := 0
  accepted := 0

/-- The machine right after reset: the unit as R37 says (R125), the host's side as log 13 says. -/
def State.reset : State where
  toUnitState := UnitState.reset
  toHostSide := HostSide.reset

end Sys2Proof.Machine
end

