-- ==== Sys2Proof/Machine/Operands.lean ====
section
/-! DEFINITION. The parts of values and scalars that operands are made of: the words of a value, zero and sign extension,
and every operand form of the commands (spec/00_scope.md R13, spec/30_encoding.md R56). -/

namespace Sys2Proof.Machine

/-- w_j(v), word j of a value, word 0 least significant (R13). -/
def limb (v : Value) (j : Nat) : Word := v.extractLsb' (32 * j) 32

/-- `v - w_j(v) * 2^(32j) + x * 2^(32j)`: word j replaced (R40). -/
def setLimb (v : Value) (j : Nat) (x : Word) : Value :=
  BitVec.ofNat 256 (v.toNat - (limb v j).toNat * 2 ^ (32 * j) + x.toNat * 2 ^ (32 * j))

/-- S[31:0] (R41). -/
def lowHalf (v : Scalar) : Word := v.extractLsb' 0 32

/-- S[63:32] (R41). -/
def highHalf (v : Scalar) : Word := v.extractLsb' 32 32

/-- `{S[63:32], x}` (R41). -/
def setLowHalf (v : Scalar) (x : Word) : Scalar := highHalf v ++ x

/-- `{x, S[31:0]}` (R41). -/
def setHighHalf (v : Scalar) (x : Word) : Scalar := x ++ lowHalf v

/-- zext_64 of a bit (R85, R109). -/
def zextBit (b : Bool) : Scalar := if b then 1#64 else 0#64

/-- zext_64 of a 32-bit word (R108). -/
def zextWord (w : Word) : Scalar := w.setWidth 64

/-- zext_64 of imm16 (R93). -/
def zextImm (imm : Imm16) : Scalar := imm.setWidth 64

/-- zext_256 of a scalar (R91). -/
def zextScalar (v : Scalar) : Value := v.setWidth 256

/-- sext_64 of an integer such as compareTo's −1, 0, +1 (R84). -/
def sext64 (c : Int) : Scalar := BitVec.ofInt 64 c

/-- The read of Ui (R14, R21): no register is hardwired. -/
def State.getU (s : State) (r : UReg) : Value := s.regsU[r.toNat]'r.isLt

/-- The read of Si (R14, R22): no register is hardwired. -/
def State.getS (s : State) (r : SReg) : Scalar := s.regsS[r.toNat]'r.isLt

/-- The shift amount of SHL and SHR: all 64 bits of S[b] (R66). -/
def amountOperand (b : SReg) (s : State) : Nat := (s.getS b).toNat

/-- The shift amount of SHLI and SHRI: imm16 (R66). -/
def amountImm (imm : Imm16) : Nat := imm.toNat

/-- The multiplier word of MULW: S[b][31:0], the upper half ignored (R75). -/
def wordOperand (b : SReg) (s : State) : Word := lowHalf (s.getS b)

/-- The multiplier word of MULWI: imm16, zero-extended (R76). -/
def wordImm (imm : Imm16) : Word := imm.setWidth 32

/-- The compact target CDEC reads: S[a][31:0], the upper half ignored (R107). -/
def compactOperand (a : SReg) (s : State) : Word := lowHalf (s.getS a)

/-- The negative flag CENC reads: S[b][0], the other bits ignored (R108). -/
def negOperand (b : SReg) (s : State) : Bool := (s.getS b).getLsbD 0

end Sys2Proof.Machine
end

