-- ==== Sys2Proof/Machine/Flags.lean ====
section
/-! DEFINITION. The flag computations of the CompactTarget decode (spec/47_compact.md R101) and the words in which flags and
status are read (spec/10_state.md R24, R26; spec/47_compact.md R109). No other command computes a flag (R24). -/

namespace Sys2Proof.Machine

/-- M, the mantissa of a compact target: `bits & 0x7fffff` (R100). -/
def mantissa (bits : Word) : Nat := (bits &&& 0x7fffff#32).toNat

/-- E, the exponent of a compact target: `bits >> 24` (R100). -/
def exponent (bits : Word) : Nat := (bits >>> 24).toNat

/-- The sign flag of a compact target, bit 23 (R100). -/
def signBit (bits : Word) : Bool := bits &&& 0x800000#32 != 0#32

/-- neg of Decode (R101). -/
def compactNeg (bits : Word) : Bool := mantissa bits != 0 && signBit bits

/-- ovf of Decode, with the source's thresholds (R101). -/
def compactOvf (bits : Word) : Bool :=
  mantissa bits != 0 &&
    (decide (exponent bits > 34) || (decide (mantissa bits > 0xff) && decide (exponent bits > 33)) ||
      (decide (mantissa bits > 0xffff) && decide (exponent bits > 32)))

/-- What a host read of FLAGS returns: bit 0 NEG, bit 1 OVF, the rest 0 (R24). -/
def flagsWord (s : State) : Word := (0#30 ++ BitVec.ofBool s.ovf ++ BitVec.ofBool s.neg : BitVec (30 + 1 + 1))

/-- What RDFL writes: `zext_64({FLAGS.OVF, FLAGS.NEG})` (R109). -/
def flagsScalar (s : State) : Scalar := (BitVec.ofBool s.ovf ++ BitVec.ofBool s.neg : BitVec (1 + 1)).setWidth 64

/-- What a host read of STATUS returns: `{0 (24 bits), ERRCODE, 0b00, ERR, BUSY}` (R26). -/
def statusWord (s : State) : Word :=
  (0#24 ++ s.errcode ++ 0#2 ++ BitVec.ofBool s.err ++ BitVec.ofBool s.busy : BitVec (24 + 4 + 2 + 1 + 1))

end Sys2Proof.Machine
end

