-- ==== Sys2Proof/Machine/Ops.lean ====
section
/-! DEFINITION. The named operations on the state: register writes, TAKING AN EXCEPTION (spec/60_exceptions.md R114) and the
return from one (R117), reset (spec/70_reset_and_hazards.md R125), and the two ends of the command cycle
(spec/30_encoding.md R60, R61). -/

namespace Sys2Proof.Machine

/-- `U[r] <- v` (R14). -/
def State.setU (s : State) (r : UReg) (v : Value) : State := { s with regsU := s.regsU.set r.toNat v r.isLt }

/-- `S[r] <- v` (R14). -/
def State.setS (s : State) (r : SReg) (v : Scalar) : State := { s with regsS := s.regsS.set r.toNat v r.isLt }

/-- `FLAGS.NEG <- n; FLAGS.OVF <- o` (R107). -/
def State.setFlags (s : State) (n o : Bool) : State := { s with neg := n, ovf := o }

/-- ERRCODE of an exception (R27, R110). -/
def errorCode : UnitException → BitVec 4
  | .divideByZero => 1#4
  | .illegalCommand => 2#4

/-- TAKING AN EXCEPTION, `raise X(cmd)` (R114): the error state is written and no register and no flag is. The completion
then ends as any other (R61). -/
def raiseException (x : UnitException) (cmd : Word) (s : State) : State :=
  { s with err := true, errcode := errorCode x, errcmd := cmd }

/-- THE RETURN from an error, CTRL.CLR_ERR (R30, R117): the error state is cleared and nothing else is restored. -/
def clearError (s : State) : State := { s with err := false, errcode := 0#4, errcmd := 0#32 }

/-- ResetState() (R30, R37, R125): the whole state of the unit takes its reset values, a pending command is lost. The host's
program, what it has read and the count of accepted commands are not the unit's; the BUSY duty ends with the pending
command (log 6). -/
def resetUnit (s : State) : State :=
  { s with toUnitState := UnitState.reset, awaiting := false, wait := 0 }

/-- A write of CTRL (R30): SOFT_RESET wins over CLR_ERR, other bits are ignored. -/
def ctrlWrite (v : Word) (s : State) : State :=
  if v.getLsbD 1 then resetUnit s else if v.getLsbD 0 then clearError s else s

/-- The acceptance of a command word (R60), with `n` STATUS reads that may still return BUSY = 1 (log 2). The BUSY duty of
the host begins (R127). -/
def accept (v : Word) (n : Nat) (s : State) : State :=
  { s with lastcmd := v, pending := some v, busy := true, awaiting := true, wait := n }

/-- CmdWrite(v) (R60): discarded while STATUS.ERR = 1, otherwise accepted with the next latency (log 2). -/
def cmdWrite (v : Word) (s : State) : State :=
  if s.err then s else { accept v (Config.latency s.accepted) s with accepted := s.accepted + 1 }

/-- The end of a completion (R61): PENDING <- none, STATUS.BUSY <- 0. -/
def endCommand (s : State) : State := { s with pending := none, busy := false, wait := 0 }

end Sys2Proof.Machine
end

