-- ==== Sys2Proof/Machine/AddSub.lean ====
section
/-! DEFINITION. The add, subtract and complement commands ADD, SUB, NOT (spec/46_addsub.md). -/

namespace Sys2Proof.Machine

/-- Add(a, b) = (a + b) mod 2^256 (R95). -/
def addValue (a b : Value) : Value := BitVec.ofNat 256 (a.toNat + b.toNat)

/-- Sub(a, b) = (a - b) mod 2^256: `a - b` when a ≥ b, else `a - b + 2^256` (R95). -/
def subValue (a b : Value) : Value := BitVec.ofInt 256 ((a.toNat : Int) - (b.toNat : Int))

/-- Not(a) = 2^256 - 1 - a (R95). -/
def notValue (a : Value) : Value := BitVec.ofNat 256 (2 ^ 256 - 1 - a.toNat)

/-- ADD (R97). -/
def execAdd (d a b : UReg) (s : State) : Result := .next (s.setU d (addValue (s.getU a) (s.getU b)))

/-- SUB (R98). -/
def execSub (d a b : UReg) (s : State) : Result := .next (s.setU d (subValue (s.getU a) (s.getU b)))

/-- NOT (R99). -/
def execNot (d a : UReg) (s : State) : Result := .next (s.setU d (notValue (s.getU a)))

end Sys2Proof.Machine
end

