-- ==== Sys2Proof/Machine/Compare.lean ====
section
/-! DEFINITION. The compare commands CMP, EQS, BITLEN (spec/44_compare.md), each function transcribed word by word. -/

namespace Sys2Proof.Machine

/-- Compare on the words below index j, from the most significant down (R81). -/
def compareBelow (a b : Value) : Nat → Int
  | 0 => 0
  | j + 1 => if limb a j < limb b j then -1 else if limb b j < limb a j then 1 else compareBelow a b j

/-- Compare(a, b), −1, 0 or +1 (R81). -/
def compareValues (a b : Value) : Int := compareBelow a b 8

/-- EqualsSmall(a, v) (R82). -/
def equalsSmall (a : Value) (v : Scalar) : Bool :=
  if [2, 3, 4, 5, 6, 7].any (fun j => limb a j != 0#32) then false
  else if limb a 0 != lowHalf v then false
  else if limb a 1 != highHalf v then false
  else true

/-- One more than the largest t below n with w[t] = 1, and 0 where there is none (R83). -/
def topBitBelow (w : Word) : Nat → Nat
  | 0 => 0
  | t + 1 => if w.getLsbD t then t + 1 else topBitBelow w t

/-- BitLength of the words below index j: `32*p + k + 1` for the highest nonzero word p (R83). -/
def bitLengthBelow (a : Value) : Nat → Nat
  | 0 => 0
  | p + 1 => if limb a p != 0#32 then 32 * p + topBitBelow (limb a p) 32 else bitLengthBelow a p

/-- BitLength(a), 0..256 (R83). -/
def bitLength (a : Value) : Nat := bitLengthBelow a 8

/-- CMP (R84). -/
def execCmp (d : SReg) (a b : UReg) (s : State) : Result := .next (s.setS d (sext64 (compareValues (s.getU a) (s.getU b))))

/-- EQS (R85). -/
def execEqs (d : SReg) (a : UReg) (b : SReg) (s : State) : Result :=
  .next (s.setS d (zextBit (equalsSmall (s.getU a) (s.getS b))))

/-- BITLEN (R86). -/
def execBitlen (d : SReg) (a : UReg) (s : State) : Result := .next (s.setS d (BitVec.ofNat 64 (bitLength (s.getU a))))

end Sys2Proof.Machine
end

