-- ==== Sys2Proof/Machine/Shift.lean ====
section
/-! DEFINITION. The shift commands SHL, SHR, SHLI, SHRI (spec/41_shift.md). -/

namespace Sys2Proof.Machine

/-- ShiftLeft(a, n) = (a * 2^n) mod 2^256 for every n (R64). The two branches are one formula (the bits of an n of 256 or
more are all past the boundary); they are kept apart so that no huge power is ever formed. -/
def shiftLeft (a : Value) (n : Nat) : Value := if n < 256 then BitVec.ofNat 256 (a.toNat * 2 ^ n) else 0#256

/-- ShiftRight(a, n) = a div 2^n for every n (R64). -/
def shiftRight (a : Value) (n : Nat) : Value := if n < 256 then BitVec.ofNat 256 (a.toNat / 2 ^ n) else 0#256

/-- SHL (R67). -/
def execShl (d a : UReg) (b : SReg) (s : State) : Result :=
  .next (s.setU d (shiftLeft (s.getU a) (amountOperand b s)))

/-- SHR (R68). -/
def execShr (d a : UReg) (b : SReg) (s : State) : Result :=
  .next (s.setU d (shiftRight (s.getU a) (amountOperand b s)))

/-- SHLI (R69). -/
def execShli (d a : UReg) (imm : Imm16) (s : State) : Result := .next (s.setU d (shiftLeft (s.getU a) (amountImm imm)))

/-- SHRI (R70). -/
def execShri (d a : UReg) (imm : Imm16) (s : State) : Result := .next (s.setU d (shiftRight (s.getU a) (amountImm imm)))

end Sys2Proof.Machine
end

