-- ==== Sys2Proof/Machine/Compact.lean ====
section
/-! DEFINITION. The CompactTarget codec commands CDEC, CENC, RDFL (spec/47_compact.md). -/

namespace Sys2Proof.Machine

/-- value of Decode(bits), truncated to 256 bits (R101). -/
def compactValue (bits : Word) : Value :=
  if exponent bits ≤ 3 then BitVec.ofNat 256 (mantissa bits / 2 ^ (8 * (3 - exponent bits)))
  else shiftLeft (BitVec.ofNat 256 (mantissa bits)) (8 * (exponent bits - 3))

/-- E of Encode before normalisation: `(BitLength(value) + 7) div 8` (R105). -/
def encodeExponent (v : Value) : Nat := (bitLength v + 7) / 8

/-- M of Encode before normalisation (R105): below 2^24 (R106). -/
def encodeMantissa (v : Value) : Nat :=
  if encodeExponent v ≤ 3 then v.toNat % 2 ^ 64 * 2 ^ (8 * (3 - encodeExponent v))
  else (shiftRight v (8 * (encodeExponent v - 3))).toNat % 2 ^ 64

/-- The normalisation step of Encode, kept exactly (R105): mantissa and exponent. -/
def normalise (m e : Nat) : Nat × Nat := if m &&& 0x800000 != 0 then (m >>> 8, e + 1) else (m, e)

/-- Encode(value, neg) (R105). -/
def compactEncode (v : Value) (neg : Bool) : Word :=
  let me := normalise (encodeMantissa v) (encodeExponent v)
  BitVec.ofNat 32 (me.1 ||| me.2 <<< 24 ||| (if neg && me.1 != 0 then 0x800000 else 0))

/-- CDEC (R107): both flags are written every time. -/
def execCdec (d : UReg) (a : SReg) (s : State) : Result :=
  let bits := compactOperand a s
  .next ((s.setU d (compactValue bits)).setFlags (compactNeg bits) (compactOvf bits))

/-- CENC (R108). -/
def execCenc (d : SReg) (a : UReg) (b : SReg) (s : State) : Result :=
  .next (s.setS d (zextWord (compactEncode (s.getU a) (negOperand b s))))

/-- RDFL (R109): the flags are read, not cleared. -/
def execRdfl (d : SReg) (s : State) : Result := .next (s.setS d (flagsScalar s))

end Sys2Proof.Machine
end

