-- ==== Sys2Proof/Machine/Convert.lean ====
section
/-! DEFINITION. The conversion and move commands TODBL, MOVU, SETU, GETLO, SLI, SLIH (spec/45_convert.md). -/

namespace Sys2Proof.Machine

/-- RoundNearestEven(n) for a natural number n: the binary64 value nearest to it, the one with an even last fraction bit on
a tie (R87). Below 2^53 every integer is one; from there on a binary64 value has 53 significant bits, so `k` low bits are
rounded off. The result is an integer again. -/
def roundNearestEven (n : Nat) : Nat :=
  if n < 2 ^ 53 then n
  else
    let k := n.log2 - 52
    let q := n / 2 ^ k
    let r := n % 2 ^ k
    if 2 * r < 2 ^ k then q * 2 ^ k
    else if 2 * r > 2 ^ k then (q + 1) * 2 ^ k
    else (q + q % 2) * 2 ^ k

/-- Bits64 of a natural number that is a binary64 value: sign 0 in bit 63, exponent biased by 1023 in bits 62:52, fraction
in bits 51:0 (R87). -/
def bits64 (n : Nat) : Scalar :=
  if n = 0 then 0#64
  else BitVec.ofNat 64 ((1023 + n.log2) * 2 ^ 52 + (n * 2 ^ 52 / 2 ^ n.log2 - 2 ^ 52))

/-- acc of ToDouble after the terms i = 0..n-1 (R87): every partial sum is a non-negative integer (R88, log 11). -/
def doubleSum (a : Value) : Nat → Nat
  | 0 => 0
  | i + 1 => roundNearestEven (doubleSum a i + (limb a i).toNat * 2 ^ (32 * i))

/-- ToDouble(a) (R87). -/
def toDouble (a : Value) : Scalar := bits64 (doubleSum a 8)

/-- TODBL (R89). -/
def execTodbl (d : SReg) (a : UReg) (s : State) : Result := .next (s.setS d (toDouble (s.getU a)))

/-- MOVU (R90). -/
def execMovu (d a : UReg) (s : State) : Result := .next (s.setU d (s.getU a))

/-- SETU (R91). -/
def execSetu (d : UReg) (a : SReg) (s : State) : Result := .next (s.setU d (zextScalar (s.getS a)))

/-- U[63:0], that is `{w_1(v), w_0(v)}` (R92). -/
def low64 (v : Value) : Scalar := limb v 1 ++ limb v 0

/-- GETLO (R92). -/
def execGetlo (d : SReg) (a : UReg) (s : State) : Result := .next (s.setS d (low64 (s.getU a)))

/-- SLI (R93). -/
def execSli (d : SReg) (imm : Imm16) (s : State) : Result := .next (s.setS d (zextImm imm))

/-- `(v * 2^16 + imm16) mod 2^64` (R94). -/
def shiftIn (v : Scalar) (imm : Imm16) : Scalar := BitVec.ofNat 64 (v.toNat * 2 ^ 16 + imm.toNat)

/-- SLIH (R94). -/
def execSlih (d : SReg) (imm : Imm16) (s : State) : Result := .next (s.setS d (shiftIn (s.getS d) imm))

end Sys2Proof.Machine
end

