-- ==== Sys2Proof/Machine/Divide.lean ====
section
/-! DEFINITION. The divide command DIV (spec/43_divide.md), and the source's binary long division (R77). -/

namespace Sys2Proof.Machine

/-- Divide(a, b) = a div b for b ≠ 0; none is DivideByZero (R78). -/
def divide (a b : Value) : Option Value := if b = 0#256 then none else some (BitVec.ofNat 256 (a.toNat / b.toNat))

/-- The loop of the long division (R77): `n` bit positions are left, so the present shift is n - 1; `d` is the divisor
shifted left by it, `r` the remaining dividend, `q` the quotient so far. -/
def longDivisionLoop : Nat → Nat → Nat → Nat → Nat
  | 0, _, _, q => q
  | n + 1, d, r, q =>
    if r ≥ d then longDivisionLoop n (d / 2) (r - d) (q + 2 ^ n) else longDivisionLoop n (d / 2) r q

/-- Divide(a, b) as the source's algorithm computes it; none is DivideByZero (R77). -/
def longDivision (a b : Value) : Option Value :=
  if bitLength b = 0 then none
  else if bitLength b > bitLength a then some 0#256
  else
    let shift := bitLength a - bitLength b
    some (BitVec.ofNat 256 (longDivisionLoop (shift + 1) (b.toNat * 2 ^ shift) a.toNat 0))

/-- DIV (R80): the quotient, or DivideByZero with the destination unwritten (R111). The command word recorded is the one
being executed, the encoding of this very command (log 10). -/
def execDiv (d a b : UReg) (s : State) : Result :=
  match divide (s.getU a) (s.getU b) with
  | none => .next (raiseException .divideByZero (encode (.div d a b)) s)
  | some q => .next (s.setU d q)

end Sys2Proof.Machine
end

