-- ==== Sys2Proof/Machine/Multiply.lean ====
section
/-! DEFINITION. The multiply commands MUL, MULW, MULWI (spec/42_multiply.md), and the source's schoolbook algorithm (R72). -/

namespace Sys2Proof.Machine

/-- Mul(a, b) = (a * b) mod 2^256 (R71). -/
def mul (a b : Value) : Value := BitVec.ofNat 256 (a.toNat * b.toNat)

/-- MulWord(a, w) = (a * w) mod 2^256 (R71). -/
def mulWord (a : Value) (w : Word) : Value := BitVec.ofNat 256 (a.toNat * w.toNat)

/-- One pass of the inner loop of the schoolbook algorithm (R72): `i` steps of it are still to do, the next has index `k`
in the result, `bs` are the words of b from the present one on. It returns the result's words from `k` on. -/
def schoolbookRow (aj : Nat) (carry : Nat) : List Nat → List Nat → List Nat
  | r :: rs, b :: bs =>
    let t := carry + r + aj * b
    t % 2 ^ 32 :: schoolbookRow aj (t / 2 ^ 32) rs bs
  | rs, _ => rs

/-- The outer loop of the schoolbook algorithm (R72) over the words of a that are left: `rs` are the result's words from
index j on. Its first word is final after row j; products that land past the last word are never formed. -/
def schoolbookLoop : List Nat → List Nat → List Nat → List Nat
  | aj :: as, bs, rs =>
    match schoolbookRow aj 0 rs bs with
    | r :: rest => r :: schoolbookLoop as bs rest
    | [] => []
  | [], _, rs => rs

/-- The words of a value, word 0 first, as numbers. -/
def limbsOf (v : Value) : List Nat := (List.range 8).map fun j => (limb v j).toNat

/-- `sum over k of r_k * 2^(32k)` (R72). -/
def sumLimbs : List Nat → Nat
  | [] => 0
  | r :: rs => r + 2 ^ 32 * sumLimbs rs

/-- The schoolbook algorithm of the source (R72): eight result words, all 0 at the start. -/
def schoolbookMul (a b : Value) : Value :=
  BitVec.ofNat 256 (sumLimbs (schoolbookLoop (limbsOf a) (limbsOf b) (List.replicate 8 0)))

/-- MUL (R74). -/
def execMul (d a b : UReg) (s : State) : Result := .next (s.setU d (mul (s.getU a) (s.getU b)))

/-- MULW (R75). -/
def execMulw (d a : UReg) (b : SReg) (s : State) : Result := .next (s.setU d (mulWord (s.getU a) (wordOperand b s)))

/-- MULWI (R76). -/
def execMulwi (d a : UReg) (imm : Imm16) (s : State) : Result := .next (s.setU d (mulWord (s.getU a) (wordImm imm)))

end Sys2Proof.Machine
end

