-- ==== Sys2Proof/Machine/Dispatch.lean ====
section
/-! DEFINITION. Execute(c) of the command cycle (spec/30_encoding.md R61): one arm per command, each a call of its meaning. -/

namespace Sys2Proof.Machine

def exec (i : Instr) (s : State) : Host.Outcome State Fault Refusal :=
  match i with
  | .shl d a b => Sys2Proof.Machine.execShl d a b s
  | .shr d a b => Sys2Proof.Machine.execShr d a b s
  | .shli d a imm => Sys2Proof.Machine.execShli d a imm s
  | .shri d a imm => Sys2Proof.Machine.execShri d a imm s
  | .mul d a b => Sys2Proof.Machine.execMul d a b s
  | .mulw d a b => Sys2Proof.Machine.execMulw d a b s
  | .mulwi d a imm => Sys2Proof.Machine.execMulwi d a imm s
  | .div d a b => Sys2Proof.Machine.execDiv d a b s
  | .cmp d a b => Sys2Proof.Machine.execCmp d a b s
  | .eqs d a b => Sys2Proof.Machine.execEqs d a b s
  | .bitlen d a => Sys2Proof.Machine.execBitlen d a s
  | .todbl d a => Sys2Proof.Machine.execTodbl d a s
  | .movu d a => Sys2Proof.Machine.execMovu d a s
  | .setu d a => Sys2Proof.Machine.execSetu d a s
  | .getlo d a => Sys2Proof.Machine.execGetlo d a s
  | .sli d imm => Sys2Proof.Machine.execSli d imm s
  | .slih d imm => Sys2Proof.Machine.execSlih d imm s
  | .add d a b => Sys2Proof.Machine.execAdd d a b s
  | .sub d a b => Sys2Proof.Machine.execSub d a b s
  | .not d a => Sys2Proof.Machine.execNot d a s
  | .cdec d a => Sys2Proof.Machine.execCdec d a s
  | .cenc d a b => Sys2Proof.Machine.execCenc d a b s
  | .rdfl d => Sys2Proof.Machine.execRdfl d s

end Sys2Proof.Machine
end

