-- ==== Sys2Proof/Machine/Window.lean ====
section
/-! DEFINITION. The register window (spec/20_memory.md): the map from offsets to registers, the host's reads and writes, and
the accesses that are refused (spec/70_reset_and_hazards.md R129). -/

namespace Sys2Proof.Machine

/-- What stands at a 4-aligned offset of the window (R25, R39). -/
inductive WindowReg where
  /-- word j of Ui (R40) -/
  | limbU (i : UReg) (j : BitVec 3)
  /-- S[i][31:0] (R41) -/
  | lowS (i : SReg)
  /-- S[i][63:32] (R41) -/
  | highS (i : SReg)
  | cmd | status | flags | ctrl | errcmd | id | version
deriving DecidableEq, Repr

/-- The window map (R25, R39): a misaligned offset (R43) and a reserved one (R44) are refused. -/
def windowReg (off : Offset) : Except Refusal WindowReg :=
  let o := off.toNat
  if o % 4 ≠ 0 then .error .accessMisaligned
  else if o < 0x200 then .ok (.limbU (BitVec.ofNat 4 (o / 0x20)) (BitVec.ofNat 3 (o % 0x20 / 4)))
  else if o < 0x280 then
    if o % 8 = 0 then .ok (.lowS (BitVec.ofNat 4 ((o - 0x200) / 8))) else .ok (.highS (BitVec.ofNat 4 ((o - 0x200) / 8)))
  else if o = 0x280 then .ok .cmd
  else if o = 0x284 then .ok .status
  else if o = 0x288 then .ok .flags
  else if o = 0x28C then .ok .ctrl
  else if o = 0x290 then .ok .errcmd
  else if o = 0x294 then .ok .id
  else if o = 0x298 then .ok .version
  else .error .accessReserved

/-- The value a host read returns (R40, R41, R47): CMD reads as LASTCMD (R29) and CTRL as 0 (R30). -/
def readReg (r : WindowReg) (s : State) : Word :=
  match r with
  | .limbU i j => limb (s.getU i) j.toNat
  | .lowS i => lowHalf (s.getS i)
  | .highS i => highHalf (s.getS i)
  | .cmd => s.lastcmd
  | .status => statusWord s
  | .flags => flagsWord s
  | .ctrl => 0#32
  | .errcmd => s.errcmd
  | .id => Config.idValue
  | .version => Config.versionValue

/-- The effect of a host write (R40, R41): CMD issues a command (R60), CTRL acts (R30), and a write of a read-only register
has no effect (R33). -/
def writeReg (r : WindowReg) (v : Word) (s : State) : State :=
  match r with
  | .limbU i j => s.setU i (setLimb (s.getU i) j.toNat v)
  | .lowS i => s.setS i (setLowHalf (s.getS i) v)
  | .highS i => s.setS i (setHighHalf (s.getS i) v)
  | .cmd => cmdWrite v s
  | .ctrl => ctrlWrite v s
  | .status => s
  | .flags => s
  | .errcmd => s
  | .id => s
  | .version => s

/-- What a host read of a window offset returns in a state, where it is not refused for its offset (R47). -/
def windowWord (off : Offset) (s : State) : Except Refusal Word :=
  match windowReg off with
  | .ok r => .ok (readReg r s)
  | .error e => .error e

/-- The byte at a window offset: byte m of the 32-bit register it lies in is that register's bits [8m+7:8m] (R40, R41, R42).
It is a view: no access is one byte wide (R43). -/
def windowByte (off : Offset) (s : State) : Except Refusal (BitVec 8) :=
  match windowWord (BitVec.ofNat 10 (off.toNat / 4 * 4)) s with
  | .ok w => .ok (w.extractLsb' (8 * (off.toNat % 4)) 8)
  | .error e => .error e

/-- A host address as an offset of the window, where it lies in it (R38). -/
def offsetOf (addr : Nat) : Option Offset :=
  if Config.unitBase ≤ addr ∧ addr < Config.unitBase + Config.windowSize then some (BitVec.ofNat 10 (addr - Config.unitBase))
  else none

/-- The host's side of a read of STATUS: seeing BUSY = 0 ends the BUSY duty (R127), and one of the reads that the latency
lets return BUSY = 1 is used up (R131). -/
def observeStatus (s : State) : State := { s with awaiting := s.awaiting && s.busy, wait := s.wait - 1 }

/-- A read delivers its value to the host (R15); no read has a side effect on the unit (R46). -/
def deliver (v : Word) (s : State) : State := { s with replies := s.replies ++ [v] }

/-- A host read (R47). -/
def hostRead (r : WindowReg) (s : State) : State :=
  match r with
  | .status => deliver (readReg .status s) (observeStatus s)
  | r => deliver (readReg r s) s

/-- The BUSY duty (R127, R129): the only access the host may make is a read of STATUS. -/
def allowedWhileBusy (r : WindowReg) (k : AccessKind) : Bool := r == .status && k == .read

/-- An access with a meaning, carried out. -/
def performAccess (r : WindowReg) (k : AccessKind) (s : State) : State :=
  match k with
  | .read => hostRead r s
  | .write v => writeReg r v s

/-- One access to the window: refused by name on the grounds of R129, carried out otherwise. Where several grounds hold, the
first below is named (log 9). -/
def hostAccess (a : Access) (s : State) : Result :=
  if a.agent ≠ .host then .refused .accessSecondAgent
  else if a.bytes ≠ 4 then .refused .accessWidth
  else
    match windowReg a.off with
    | .error e => .refused e
    | .ok r =>
      if (s.awaiting || s.busy) && !allowedWhileBusy r a.kind then .refused .accessWhileBusy
      else .next (performAccess r a.kind s)

end Sys2Proof.Machine
end

