-- ==== Sys2Proof/Machine/Cycle.lean ====
section
/-! DEFINITION. The command cycle (spec/30_encoding.md R60, R61) and its order with the host's accesses (spec/20_memory.md
R48): every execution is one sequence of host accesses and completions. -/

namespace Sys2Proof.Machine

/-- Decode and execute the pending word, or raise IllegalCommand (R61, R112). -/
def executeWord (w : Word) (s : State) : Result :=
  match decode w with
  | .error _ => .next (raiseException .illegalCommand w s)
  | .ok i => exec i s

/-- Complete() (R61), one atomic step (R50): a raise inside it goes on with the last two lines. -/
def complete (w : Word) (s : State) : Result :=
  match executeWord w s with
  | .next t => .next (endCommand t)
  | .fault f => .fault f
  | .refused r => .refused r

/-- One round of WaitIdle (R128): a read of STATUS; while it returns BUSY = 1 the loop stays at the head of the host's
program. -/
def waitIdleRound (rest : List HostEvent) (s : State) : State :=
  { hostRead .status s with inputs := if s.busy then .waitIdle :: rest else rest }

/-- The host's next event (R48); with none left the unit is idle with its state held (R124, log 8). -/
def hostTurn (s : State) : Result :=
  match s.inputs with
  | [] => .next s
  | .access a :: rest => hostAccess a { s with inputs := rest }
  | .waitIdle :: rest => .next (waitIdleRound rest s)
  | .powerOnReset :: rest => .next (resetUnit { s with inputs := rest })

/-- The pending command completes now: no further STATUS read is let through before it (R131, log 2), or the host makes no
further access (log 8). -/
def completesNow (s : State) : Bool := s.wait == 0 || s.inputs.isEmpty

/-- One step of the machine (R48): the completion of the pending command, or the host's next event. -/
def cycle (s : State) : Result :=
  match s.pending with
  | some w => if completesNow s then complete w s else hostTurn s
  | none => hostTurn s

end Sys2Proof.Machine
end

