-- ==== Sys2Proof/Machine/Step.lean ====
section
/-! DEFINITION. The step function, and the state in which a given command word is the next thing the unit completes. -/

namespace Sys2Proof.Machine

/-- One step of the machine (spec/20_memory.md R48). -/
def step (s : State) : Host.Outcome State Fault Refusal := cycle s

/-- `s` with the command word accepted (spec/30_encoding.md R60) and no STATUS read left before its completion: the unit
fetches nothing (R51), so this stands for the host's write of the word to CMD (log 1). -/
def State.withFetchWord (s : State) (nbits w : Nat) : State := accept (BitVec.ofNat 32 (w % 2 ^ nbits)) 0 s

end Sys2Proof.Machine
end

