-- ==== Sys2Proof/Machine/Assembler.lean ====
section
/-! DEFINITION. The assembler's syntax (spec/30_encoding.md R62): a line as text, as operands and as a command word; and the
pseudo-instructions with their expansions (R63). Text is a list of characters. -/

namespace Sys2Proof.Machine

/-! ### Lines and words -/

/-- The number in an operand. -/
def operandNumber : AsmOperand → Nat
  | .u n => n
  | .s n => n
  | .imm n => n

/-- The operands of a checked line put into the fields of the row's format, destination first (R55, R57). -/
def placeFields (m : Mnemonic) (ns : List Nat) : Except AsmError Word :=
  match m.format, ns with
  | .rrr, [d, a, b] => .ok (encodeRRR m (BitVec.ofNat 4 d) (BitVec.ofNat 4 a) (BitVec.ofNat 4 b))
  | .rr, [d, a] => .ok (encodeRR m (BitVec.ofNat 4 d) (BitVec.ofNat 4 a))
  | .ri, [d, a, i] => .ok (encodeRI m (BitVec.ofNat 4 d) (BitVec.ofNat 4 a) (BitVec.ofNat 16 i))
  | .di, [d, i] => .ok (encodeDI m (BitVec.ofNat 4 d) (BitVec.ofNat 16 i))
  | .d, [d] => .ok (encodeD m (BitVec.ofNat 4 d))
  | _, _ => .error .operandCount

/-- The command word of a line, or why it has none (R62). -/
def assemble (l : AsmLine) : Except AsmError Word :=
  match l.check with
  | .error e => .error e
  | .ok _ => placeFields l.mnemonic (l.operands.map operandNumber)

/-! ### Text -/

/-- The mnemonic column of the opcode map (R57): "mnemonics in capitals". -/
def mnemonicText : Mnemonic → List Char
  | .shl => ['S', 'H', 'L']
  | .shr => ['S', 'H', 'R']
  | .shli => ['S', 'H', 'L', 'I']
  | .shri => ['S', 'H', 'R', 'I']
  | .mul => ['M', 'U', 'L']
  | .mulw => ['M', 'U', 'L', 'W']
  | .mulwi => ['M', 'U', 'L', 'W', 'I']
  | .div => ['D', 'I', 'V']
  | .cmp => ['C', 'M', 'P']
  | .eqs => ['E', 'Q', 'S']
  | .bitlen => ['B', 'I', 'T', 'L', 'E', 'N']
  | .todbl => ['T', 'O', 'D', 'B', 'L']
  | .movu => ['M', 'O', 'V', 'U']
  | .setu => ['S', 'E', 'T', 'U']
  | .getlo => ['G', 'E', 'T', 'L', 'O']
  | .sli => ['S', 'L', 'I']
  | .slih => ['S', 'L', 'I', 'H']
  | .add => ['A', 'D', 'D']
  | .sub => ['S', 'U', 'B']
  | .not => ['N', 'O', 'T']
  | .cdec => ['C', 'D', 'E', 'C']
  | .cenc => ['C', 'E', 'N', 'C']
  | .rdfl => ['R', 'D', 'F', 'L']

/-- The text of an operand, immediates in decimal (R62). -/
def operandText : AsmOperand → List Char
  | .u n => 'U' :: Nat.toDigits 10 n
  | .s n => 'S' :: Nat.toDigits 10 n
  | .imm n => Nat.toDigits 10 n

/-- Operands separated by a comma and a space (R62). -/
def operandsText : List AsmOperand → List Char
  | [] => []
  | [o] => operandText o
  | o :: os => operandText o ++ ',' :: ' ' :: operandsText os

/-- The text of a line, `MNEMONIC operands` (R62). -/
def lineText (l : AsmLine) : List Char := mnemonicText l.mnemonic ++ ' ' :: operandsText l.operands

/-- The value of a digit of base 10 or 16; letters of either case (log 18). -/
def digitValue (base : Nat) (c : Char) : Option Nat :=
  let v := if 48 ≤ c.toNat ∧ c.toNat ≤ 57 then c.toNat - 48
    else if 97 ≤ c.toNat ∧ c.toNat ≤ 102 then c.toNat - 87
    else if 65 ≤ c.toNat ∧ c.toNat ≤ 70 then c.toNat - 55
    else base
  if v < base then some v else none

/-- The number a list of digits stands for, `acc` being read already. -/
def digitsFrom (base : Nat) : List Char → Nat → Option Nat
  | [], acc => some acc
  | c :: cs, acc =>
    match digitValue base c with
    | some v => digitsFrom base cs (acc * base + v)
    | none => none

/-- A number of at least one digit. -/
def readNumber (base : Nat) (cs : List Char) : Except AsmError Nat :=
  match cs with
  | [] => .error .badOperand
  | _ =>
    match digitsFrom base cs 0 with
    | some n => .ok n
    | none => .error .badOperand

/-- A register number, written without leading zeros as U0..U15 and S0..S15 are (R62; log 18). -/
def readRegister (cs : List Char) : Except AsmError Nat :=
  match readNumber 10 cs with
  | .ok n => if Nat.toDigits 10 n = cs then .ok n else .error .badOperand
  | .error e => .error e

/-- An operand from its text (R62). -/
def readOperand (cs : List Char) : Except AsmError AsmOperand :=
  match cs with
  | 'U' :: ds => (readRegister ds).map .u
  | 'S' :: ds => (readRegister ds).map .s
  | '0' :: 'x' :: ds => (readNumber 16 ds).map .imm
  | ds => (readNumber 10 ds).map .imm

/-- The texts between the separators, each exactly a comma and a space (R62; log 18). -/
def splitOperands : List Char → List (List Char)
  | [] => [[]]
  | ',' :: ' ' :: cs => [] :: splitOperands cs
  | c :: cs =>
    match splitOperands cs with
    | [] => [[c]]
    | t :: ts => (c :: t) :: ts

/-- Every operand of a line, or the first error. -/
def readOperands : List (List Char) → Except AsmError (List AsmOperand)
  | [] => .ok []
  | t :: ts =>
    match readOperand t, readOperands ts with
    | .ok o, .ok os => .ok (o :: os)
    | .error e, _ => .error e
    | _, .error e => .error e

/-- A line without its comment and the spaces around it (R62; log 18). -/
def stripLine (cs : List Char) : List Char :=
  (((cs.takeWhile (· != ';')).dropWhile (· == ' ')).reverse.dropWhile (· == ' ')).reverse

/-- A line from its text (R62). A line with no command, empty or holding only a comment, is refused as unknownMnemonic: the
spec says only that `;` starts a comment (DESIGN CHOICE, log 18). -/
def readLine (cs : List Char) : Except AsmError AsmLine :=
  let t := stripLine cs
  match mnemonics.find? (fun m => mnemonicText m == t.takeWhile (· != ' ')) with
  | none => .error .unknownMnemonic
  | some m => (readOperands (splitOperands ((t.dropWhile (· != ' ')).drop 1))).map (AsmLine.mk m)

/-! ### Pseudo-instructions (R63) -/

/-- The pseudo-instructions (R63). -/
inductive Pseudo where
  | li32 (d : SReg) (imm : BitVec 32)
  | li64 (d : SReg) (imm : BitVec 64)
  | zerou (d : UReg)
  | zeros (d : SReg)
  | oneu (d : UReg) (x : SReg)
deriving DecidableEq, Repr

/-- The expansions (R63). -/
def expand : Pseudo → List Instr
  | .li32 d imm => [.sli d (imm.extractLsb' 16 16), .slih d (imm.extractLsb' 0 16)]
  | .li64 d imm =>
    [.sli d (imm.extractLsb' 48 16), .slih d (imm.extractLsb' 32 16), .slih d (imm.extractLsb' 16 16),
     .slih d (imm.extractLsb' 0 16)]
  | .zerou d => [.sub d d d]
  | .zeros d => [.sli d 0#16]
  | .oneu d x => [.sli x 1#16, .setu d x]

/-- The pseudo-instruction a name and its operands stand for, with the ranges of R63. -/
def pseudoOf (name : List Char) (os : List AsmOperand) : Except AsmError Pseudo :=
  if name = ['L', 'I', '3', '2'] then
    match os with
    | [.s d, .imm n] =>
      if 16 ≤ d then .error .registerRange else if 2 ^ 32 ≤ n then .error .immediateRange
      else .ok (.li32 (BitVec.ofNat 4 d) (BitVec.ofNat 32 n))
    | _ => .error .operandLetter
  else if name = ['L', 'I', '6', '4'] then
    match os with
    | [.s d, .imm n] =>
      if 16 ≤ d then .error .registerRange else if 2 ^ 64 ≤ n then .error .immediateRange
      else .ok (.li64 (BitVec.ofNat 4 d) (BitVec.ofNat 64 n))
    | _ => .error .operandLetter
  else if name = ['Z', 'E', 'R', 'O', 'U'] then
    match os with
    | [.u d] => if 16 ≤ d then .error .registerRange else .ok (.zerou (BitVec.ofNat 4 d))
    | _ => .error .operandLetter
  else if name = ['Z', 'E', 'R', 'O', 'S'] then
    match os with
    | [.s d] => if 16 ≤ d then .error .registerRange else .ok (.zeros (BitVec.ofNat 4 d))
    | _ => .error .operandLetter
  else if name = ['O', 'N', 'E', 'U'] then
    match os with
    | [.u d, .s x] =>
      if 16 ≤ d ∨ 16 ≤ x then .error .registerRange else .ok (.oneu (BitVec.ofNat 4 d) (BitVec.ofNat 4 x))
    | _ => .error .operandLetter
  else .error .unknownMnemonic

/-- The commands a line of text stands for: one command (R62), or the expansion of a pseudo-instruction (R63). An empty line,
and one that holds only a comment, is refused as badOperand, not read as no command (DESIGN CHOICE, log 18). -/
def readCommands (cs : List Char) : Except AsmError (List Instr) :=
  match readLine cs with
  | .ok l =>
    match assemble l with
    | .error e => .error e
    | .ok w =>
      match decode w with
      | .ok i => .ok [i]
      | .error _ => .error .badOperand
  | .error .unknownMnemonic =>
    let t := stripLine cs
    match readOperands (splitOperands ((t.dropWhile (· != ' ')).drop 1)) with
    | .error e => .error e
    | .ok os => (pseudoOf (t.takeWhile (· != ' ')) os).map expand
  | .error e => .error e

/-- Commands executed one after the other, up to the first that has no next state. -/
def execList : List Instr → State → Result
  | [], s => .next s
  | i :: is, s =>
    match exec i s with
    | .next t => execList is t
    | .fault f => .fault f
    | .refused r => .refused r

end Sys2Proof.Machine
end

