-- ==== Sys2Proof/Safety.lean ====
section
/-! DEFINITION. What claims are stated in: which registers an effect changes, the invariant of the unit, the host that keeps
its duty (spec/70_reset_and_hazards.md R127), and the command word as a rule's own formula gives it. -/

namespace Sys2Proof.Machine

/-! ### Effects -/

/-- From `s` to `t` exactly one thing changed: Ud holds `v`. -/
def OnlyU (d : UReg) (v : Value) (s t : State) : Prop :=
  t.getU d = v ∧ (∀ r, r ≠ d → t.getU r = s.getU r) ∧ t = { s with regsU := t.regsU }

/-- From `s` to `t` exactly one thing changed: Sd holds `v`. -/
def OnlyS (d : SReg) (v : Scalar) (s t : State) : Prop :=
  t.getS d = v ∧ (∀ r, r ≠ d → t.getS r = s.getS r) ∧ t = { s with regsS := t.regsS }

/-- From `s` to `t` exactly this changed: Ud holds `v` and FLAGS holds `n` and `o`. -/
def OnlyUFlags (d : UReg) (v : Value) (n o : Bool) (s t : State) : Prop :=
  t.getU d = v ∧ (∀ r, r ≠ d → t.getU r = s.getU r) ∧ t.neg = n ∧ t.ovf = o ∧
    t = { s with regsU := t.regsU, neg := t.neg, ovf := t.ovf }

/-- The unit's own state (spec/10_state.md R20) is the same in `s` and `t`; the host's side may differ. -/
def SameUnit (s t : State) : Prop := t.toUnitState = s.toUnitState

/-- The offsets of the window that hold a command's destination register (spec/20_memory.md R39). -/
def inDestination (i : Instr) (off : Offset) : Prop :=
  match i with
  | .shl d _ _ | .shr d _ _ | .shli d _ _ | .shri d _ _ | .mul d _ _ | .mulw d _ _ | .mulwi d _ _ | .div d _ _ | .movu d _
  | .setu d _ | .add d _ _ | .sub d _ _ | .not d _ | .cdec d _ =>
    0x20 * d.toNat ≤ off.toNat ∧ off.toNat < 0x20 * d.toNat + 0x20
  | .cmp d _ _ | .eqs d _ _ | .bitlen d _ | .todbl d _ | .getlo d _ | .sli d _ | .slih d _ | .cenc d _ _ | .rdfl d =>
    0x200 + 8 * d.toNat ≤ off.toNat ∧ off.toNat < 0x208 + 8 * d.toNat

/-- The host may make any access: nothing is pending and no BUSY duty is open (spec/70_reset_and_hazards.md R127). -/
abbrev Idle (s : State) : Prop := s.pending = none ∧ s.busy = false ∧ s.awaiting = false

/-- The host's next event comes before any completion: nothing is pending, or a STATUS read is still let through first
(spec/70_reset_and_hazards.md R131). -/
abbrev HostFirst (s : State) : Prop := s.pending = none ∨ s.wait ≠ 0

/-- The pending command completes in the next step. -/
abbrev CompletesNext (s : State) : Prop := s.wait = 0 ∨ s.inputs = []

/-! ### Numbers the rules speak of -/

/-- A natural number that is a binary64 value: at most 53 significant bits. (From 2^53 on every binary64 value is one, and
the values of the unit stay far below 2^1024.) -/
def IsBinary64 (m : Nat) : Prop := ∃ q k, q < 2 ^ 53 ∧ m = q * 2 ^ k

/-- The distance of two natural numbers. -/
def distance (m n : Nat) : Nat := (m - n) + (n - m)

/-- `r` is RoundNearestEven(x) (spec/45_convert.md R87): no binary64 value is nearer to x, and where another one is as near,
r has an even last fraction bit. -/
def NearestEven (x r : Nat) : Prop :=
  IsBinary64 r ∧ (∀ m, IsBinary64 m → distance x r ≤ distance x m) ∧
    (∀ m, IsBinary64 m → m ≠ r → distance x m = distance x r →
      ∃ q k, r = q * 2 ^ k ∧ 2 ^ 52 ≤ q ∧ q < 2 ^ 53 ∧ q % 2 = 0)

/-- `b` is the binary64 bit pattern of the natural number `n` (spec/45_convert.md R87): all zero for +0.0; otherwise sign 0, a
biased exponent of a normal number, and 2^52 + fraction scaled by 2^(exponent - 1075) is n. -/
def BitsOf (n : Nat) (b : Scalar) : Prop :=
  (n = 0 ∧ b = 0#64) ∨
    (b.getLsbD 63 = false ∧ 0 < (b.extractLsb' 52 11).toNat ∧ (b.extractLsb' 52 11).toNat < 2047 ∧
      (2 ^ 52 + (b.extractLsb' 0 52).toNat) * 2 ^ (b.extractLsb' 52 11).toNat = n * 2 ^ 1075)

/-- Encode(value, neg) in plain arithmetic (spec/47_compact.md R105): `Nat.size` is the bit length, and a mantissa below 2^24
has its bit 23 set exactly when it is at least 2^23. -/
def compactForm (v : Nat) (neg : Bool) : Nat :=
  let e := (v.size + 7) / 8
  let m := if e ≤ 3 then v * 2 ^ (8 * (3 - e)) else v / 2 ^ (8 * (e - 3))
  let m' := if 2 ^ 23 ≤ m then m / 2 ^ 8 else m
  let e' := if 2 ^ 23 ≤ m then e + 1 else e
  m' + e' * 2 ^ 24 + (if neg = true ∧ m' ≠ 0 then 2 ^ 23 else 0)

/-- The opcode is one of the reserved ones, as the rule lists them (spec/30_encoding.md R58). -/
def reservedOp (op : Nat) : Prop :=
  op ≤ 0x0F ∨ (0x14 ≤ op ∧ op ≤ 0x1F) ∨ (0x23 ≤ op ∧ op ≤ 0x2F) ∨ (0x31 ≤ op ∧ op ≤ 0x3F) ∨ (0x43 ≤ op ∧ op ≤ 0x4F) ∨
    (0x56 ≤ op ∧ op ≤ 0x5F) ∨ (0x63 ≤ op ∧ op ≤ 0x6F) ∨ (0x73 ≤ op ∧ op ≤ 0xFF)

/-! ### Command words as the rules of files 41 to 47 write them -/

/-- `p | b<<16 | a<<12 | d<<8`. -/
def wordDAB (p : Word) (d a b : BitVec 4) : Word :=
  p ||| b.setWidth 32 <<< 16 ||| a.setWidth 32 <<< 12 ||| d.setWidth 32 <<< 8

/-- `p | a<<12 | d<<8`. -/
def wordDA (p : Word) (d a : BitVec 4) : Word := p ||| a.setWidth 32 <<< 12 ||| d.setWidth 32 <<< 8

/-- `p | imm16<<16 | a<<12 | d<<8`. -/
def wordDAI (p : Word) (d a : BitVec 4) (imm : Imm16) : Word :=
  p ||| imm.setWidth 32 <<< 16 ||| a.setWidth 32 <<< 12 ||| d.setWidth 32 <<< 8

/-- `p | imm16<<16 | d<<8`. -/
def wordDI (p : Word) (d : BitVec 4) (imm : Imm16) : Word := p ||| imm.setWidth 32 <<< 16 ||| d.setWidth 32 <<< 8

/-- `p | d<<8`. -/
def wordD (p : Word) (d : BitVec 4) : Word := p ||| d.setWidth 32 <<< 8

/-! ### The invariant -/

/-- The error code is the one the recorded command word raises (spec/60_exceptions.md R110, R115): DIV_ZERO for a DIV,
ILLEGAL_CMD for a word that is no command. -/
def errorMatches (code : BitVec 4) (w : Word) : Bool :=
  match decode w with
  | .ok (.div _ _ _) => code == 1#4
  | .ok _ => false
  | .error _ => code == 2#4

/-- STATUS.BUSY is 1 exactly when PENDING is not none (spec/10_state.md R34). -/
abbrev BusyIsPending (s : State) : Prop := s.busy = s.pending.isSome

/-- While ERR = 0, ERRCODE and ERRCMD are 0 (spec/10_state.md R26, R28); while ERR = 1 they describe the last accepted
command, since nothing was accepted after it (spec/60_exceptions.md R115, R116). -/
abbrev ErrorIsConsistent (s : State) : Prop :=
  (s.err = false ∧ s.errcode = 0#4 ∧ s.errcmd = 0#32) ∨
    (s.err = true ∧ s.errcmd = s.lastcmd ∧ errorMatches s.errcode s.errcmd = true)

/-- A pending word is the last accepted one, no error is recorded, and the host is in the interval of its BUSY duty
(spec/10_state.md R29, spec/30_encoding.md R60, spec/70_reset_and_hazards.md R127); otherwise no read is waited for. -/
abbrev PendingIsLast (s : State) : Prop :=
  (s.pending = none ∧ s.wait = 0) ∨ (s.pending = some s.lastcmd ∧ s.err = false ∧ s.awaiting = true)

/-- The invariant of the machine. -/
abbrev State.Inv (s : State) : Prop := BusyIsPending s ∧ ErrorIsConsistent s ∧ PendingIsLast s

/-! ### Host programs that keep the duty -/

/-- The access has a meaning by its agent, width and offset (spec/70_reset_and_hazards.md R129). -/
def Access.meaningful (a : Access) : Bool :=
  a.agent == .host && a.bytes == 4 && a.off.toNat % 4 == 0 && decide (a.off.toNat < 0x29C)

/-- A read of STATUS, the one access the BUSY duty allows (R127). -/
def Access.readsStatus (a : Access) : Bool := a.off == 0x284#10 && a.kind == .read

/-- A write of CMD (R60). -/
def Access.writesCmd (a : Access) : Bool := a.off == 0x280#10 && a.kind != .read

/-- A host program that keeps the BUSY duty whatever the latency (R127, R128): after a write of CMD it reads STATUS only,
until a WaitIdle or a power-on reset, which ends the interval (DEDUCED, log 6). The first argument says that the program is
in that interval. -/
def keepsDuty : Bool → List HostEvent → Bool
  | _, [] => true
  | _, .waitIdle :: es => keepsDuty false es
  | _, .powerOnReset :: es => keepsDuty false es
  | true, .access a :: es => a.meaningful && a.readsStatus && keepsDuty true es
  | false, .access a :: es => a.meaningful && keepsDuty a.writesCmd es

/-- A safe run: every step up to `k` has a next state, so no access of it is refused. -/
def SafeFor (k : Nat) (s : State) : Prop := ∃ t, core.run k s = .next t

end Sys2Proof.Machine
end

