-- ==== Sys2Proof/Certificates/Slice0/Obligations.lean ====
section
/-! DEFINITION. The statements for the provers: one `def Obligations.<Name> : Prop` each. What a statement says in words, and
which rule of spec/ it formalises, stands in its docstring and in OBLIGATIONS.json. -/

open Sys2Proof Sys2Proof.Machine

/-- For every command, with every operand at every value its fields admit, decode of its encoding is that command; and the
table-word decoder reads the same. (30_encoding.md sections 2 and 3 (R55, R57, R59), derived.) -/
def Obligations.DecodeReadsEncodedCommand : Prop :=
  ∀ i : Instr, decode (encode i) = .ok i ∧ decodeTableWord 32 (encode i).toNat = some i

/-- For every 32-bit word that decodes to a command, encoding the command gives the word: no bit of a legal word is
without meaning. (30_encoding.md section 2 (R55), 92_eei_decisions.md D5, derived.) -/
def Obligations.EveryLegalWordHasOneMeaning : Prop :=
  ∀ (w : Word) (i : Instr), decode w = .ok i → encode i = w

/-- For every 32-bit word: it decodes to a command exactly when some row of the opcode map matches it by mask; with a
reserved opcode it is rejected as reservedOpcode; with a defined opcode and no matching row as nonzeroSbz; a word that
does not decode raises IllegalCommand when it is completed; the zero word is illegal. (R58, stated.) -/
def Obligations.LegalWordsAreTheTableRows : Prop :=
  ∀ w : Word,
    ((∃ i, decode w = .ok i) ↔ ∃ m, m ∈ mnemonics ∧ m.Matches w) ∧
    (reservedOp (w.toNat % 2 ^ 8) → decode w = .error (.reservedOpcode (BitVec.ofNat 8 w.toNat))) ∧
    (¬ reservedOp (w.toNat % 2 ^ 8) → (¬ ∃ m, m ∈ mnemonics ∧ m.Matches w) →
      decode w = .error (.nonzeroSbz (BitVec.ofNat 8 w.toNat))) ∧
    ((¬ ∃ m, m ∈ mnemonics ∧ m.Matches w) → ∀ s : State,
      executeWord w s = .next { s with err := true, errcode := 2#4, errcmd := w }) ∧
    decode 0x00000000#32 = .error (.reservedOpcode 0x00#8)

/-- One word of each format, as printed in the spec, decodes to the command printed beside it. (30_encoding.md R62,
95_test_vectors.md Part 3, derived.) -/
def Obligations.SampleWordsDecode : Prop :=
  decode 0x00032110#32 = .ok (.shl 1#4 2#4 3#4) ∧ decode 0x00FF2112#32 = .ok (.shli 1#4 2#4 255#16) ∧
    decode 0x00001142#32 = .ok (.bitlen 1#4 1#4) ∧ decode 0x1D000454#32 = .ok (.sli 4#4 0x1d00#16) ∧
    decode 0x00000272#32 = .ok (.rdfl 2#4) ∧ decode 0x000FFF71#32 = .ok (.cenc 15#4 15#4 15#4)

/-- The line of every command assembles to its encoding; and whatever line assembles to a word is the line of the command
that the word decodes to. (30_encoding.md section 5 (R62), derived.) -/
def Obligations.AssemblerWritesTheEncoding : Prop :=
  (∀ i : Instr, assemble i.asm = .ok (encode i)) ∧
    ∀ (l : AsmLine) (w : Word), assemble l = .ok w → ∃ i, decode w = .ok i ∧ i.asm = l

/-- The words of SHL and SHLI decode to them. In every state SHL Ud, Ua, Sb completes with U[d] = U[a] * 2^S[b] mod 2^256,
all 64 bits of S[b] counting, and SHLI with the immediate amount; every other register, flag and status field is
unchanged. (R67, R69, stated.) -/
def Obligations.ShiftLeftCommandsWriteTheShiftedValue : Prop :=
  (∀ d a b, decode (wordDAB 0x00000010#32 d a b) = .ok (.shl d a b)) ∧
    (∀ d a imm, decode (wordDAI 0x00000012#32 d a imm) = .ok (.shli d a imm)) ∧
    (∀ d a b (s : State), ∃ t, exec (.shl d a b) s = .next t ∧
      OnlyU d (BitVec.ofNat 256 ((s.getU a).toNat * 2 ^ (s.getS b).toNat)) s t) ∧
    (∀ d a imm (s : State), ∃ t, exec (.shli d a imm) s = .next t ∧
      OnlyU d (BitVec.ofNat 256 ((s.getU a).toNat * 2 ^ imm.toNat)) s t)

/-- The words of SHR and SHRI decode to them. In every state SHR Ud, Ua, Sb completes with U[d] = U[a] div 2^S[b], all 64
bits of S[b] counting, and SHRI with the immediate amount; every other register, flag and status field is unchanged.
(R68, R70, stated.) -/
def Obligations.ShiftRightCommandsWriteTheShiftedValue : Prop :=
  (∀ d a b, decode (wordDAB 0x00000011#32 d a b) = .ok (.shr d a b)) ∧
    (∀ d a imm, decode (wordDAI 0x00000013#32 d a imm) = .ok (.shri d a imm)) ∧
    (∀ d a b (s : State), ∃ t, exec (.shr d a b) s = .next t ∧
      OnlyU d (BitVec.ofNat 256 ((s.getU a).toNat / 2 ^ (s.getS b).toNat)) s t) ∧
    (∀ d a imm (s : State), ∃ t, exec (.shri d a imm) s = .next t ∧
      OnlyU d (BitVec.ofNat 256 ((s.getU a).toNat / 2 ^ imm.toNat)) s t)

/-- The words of the three commands decode to them. In every state they complete with U[d] the product modulo 2^256 of
U[a] with U[b], with the low 32 bits of S[b], or with the immediate; every other register, flag and status field is
unchanged. (R74, R75, R76, stated.) -/
def Obligations.MultiplyCommandsWriteTheProduct : Prop :=
  (∀ d a b, decode (wordDAB 0x00000020#32 d a b) = .ok (.mul d a b)) ∧
    (∀ d a b, decode (wordDAB 0x00000021#32 d a b) = .ok (.mulw d a b)) ∧
    (∀ d a imm, decode (wordDAI 0x00000022#32 d a imm) = .ok (.mulwi d a imm)) ∧
    (∀ d a b (s : State), ∃ t, exec (.mul d a b) s = .next t ∧ OnlyU d (s.getU a * s.getU b) s t) ∧
    (∀ d a b (s : State), ∃ t, exec (.mulw d a b) s = .next t ∧
      OnlyU d (BitVec.ofNat 256 ((s.getU a).toNat * ((s.getS b).toNat % 2 ^ 32))) s t) ∧
    (∀ d a imm (s : State), ∃ t, exec (.mulwi d a imm) s = .next t ∧
      OnlyU d (BitVec.ofNat 256 ((s.getU a).toNat * imm.toNat)) s t)

/-- The word of DIV decodes to it. In every state with U[b] nonzero DIV Ud, Ua, Ub completes with U[d] = U[a] div U[b];
every other register, flag and status field is unchanged. (43_divide.md sections 1 and 2 (R78, R80), derived.) -/
def Obligations.DivWritesTheFloorQuotient : Prop :=
  (∀ d a b, decode (wordDAB 0x00000030#32 d a b) = .ok (.div d a b)) ∧
    ∀ d a b (s : State), s.getU b ≠ 0#256 → ∃ t, exec (.div d a b) s = .next t ∧ OnlyU d (s.getU a / s.getU b) s t

/-- In every state with U[b] = 0, DIV Ud, Ua, Ub takes DivideByZero: ERR = 1, ERRCODE = 1, ERRCMD = its word, and nothing
else changes. And no command in any state changes ERR, ERRCODE or ERRCMD but a DIV whose divisor is 0. (R111, stated.) -/
def Obligations.DivideByZeroIsRaisedByDivOnly : Prop :=
  (∀ d a b (s : State), s.getU b = 0#256 →
      exec (.div d a b) s =
        .next { s with err := true, errcode := 1#4, errcmd := wordDAB 0x00000030#32 d a b }) ∧
    ∀ (i : Instr) (s t : State), exec i s = .next t →
      (t.err ≠ s.err ∨ t.errcode ≠ s.errcode ∨ t.errcmd ≠ s.errcmd) →
      ∃ d a b, i = .div d a b ∧ s.getU b = 0#256

/-- The word of CMP decodes to it. In every state CMP Sd, Ua, Ub completes with S[d] = 2^64 - 1, 0 or 1 as U[a] is below,
equal to or above U[b] as an unsigned integer; every other register, flag and status field is unchanged. (R84,
stated.) -/
def Obligations.CmpComparesAsIntegers : Prop :=
  (∀ d a b, decode (wordDAB 0x00000040#32 d a b) = .ok (.cmp d a b)) ∧
    ∀ d a b (s : State), ∃ t, exec (.cmp d a b) s = .next t ∧
      OnlyS d (if (s.getU a).toNat < (s.getU b).toNat then 0xFFFFFFFFFFFFFFFF#64
        else if (s.getU a).toNat = (s.getU b).toNat then 0#64 else 1#64) s t

/-- The word of EQS decodes to it. In every state EQS Sd, Ua, Sb completes with S[d] = 1 when U[a] = S[b] as integers and
0 otherwise; every other register, flag and status field is unchanged. (R85, stated.) -/
def Obligations.EqsTestsEqualityWithAScalar : Prop :=
  (∀ d a b, decode (wordDAB 0x00000041#32 d a b) = .ok (.eqs d a b)) ∧
    ∀ d a b (s : State), ∃ t, exec (.eqs d a b) s = .next t ∧
      OnlyS d (if (s.getU a).toNat = (s.getS b).toNat then 1#64 else 0#64) s t

/-- The word of BITLEN decodes to it. In every state BITLEN Sd, Ua completes with S[d] = n, where n is at most 256, U[a] <
2^n, and no smaller n bounds U[a]; every other register, flag and status field is unchanged. (R86, stated.) -/
def Obligations.BitlenIsTheLeastBound : Prop :=
  (∀ d a, decode (wordDA 0x00000042#32 d a) = .ok (.bitlen d a)) ∧
    ∀ d a (s : State), ∃ t n, exec (.bitlen d a) s = .next t ∧ OnlyS d (BitVec.ofNat 64 n) s t ∧ n ≤ 256 ∧
      (s.getU a).toNat < 2 ^ n ∧ ∀ m, (s.getU a).toNat < 2 ^ m → n ≤ m

/-- The word of TODBL decodes to it. In every state TODBL Sd, Ua completes with S[d] = ToDouble(U[a]); every other
register, flag and status field is unchanged. ToDouble of 0, 2^64, 2^53 + 1 and 2^256 - 1 are the patterns the rule
prints. (R89, stated.) -/
def Obligations.TodblWritesToDouble : Prop :=
  (∀ d a, decode (wordDA 0x00000050#32 d a) = .ok (.todbl d a)) ∧
    (∀ d a (s : State), ∃ t, exec (.todbl d a) s = .next t ∧ OnlyS d (toDouble (s.getU a)) s t) ∧
    toDouble 0#256 = 0#64 ∧ toDouble (BitVec.ofNat 256 (2 ^ 64)) = 0x43F0000000000000#64 ∧
    toDouble (BitVec.ofNat 256 (2 ^ 53 + 1)) = 0x4340000000000000#64 ∧
    toDouble (BitVec.ofNat 256 (2 ^ 256 - 1)) = 0x4FF0000000000000#64

/-- For every value a there are partial sums acc 0 = 0, acc 1, ..., acc 8, each the nearest binary64 value (even last
fraction bit on a tie) to the one before plus word i times 2^(32i), such that ToDouble(a) is the binary64 bit pattern
of acc 8. The partial sums, and the binary64 values among which they are the nearest, are natural numbers: that every
partial sum is one is the deduction of log 11 (DEDUCED). (45_convert.md section 1 (R87), derived.) -/
def Obligations.ToDoubleRoundsEachPartialSum : Prop :=
  ∀ a : Value, ∃ acc : Nat → Nat, acc 0 = 0 ∧
    (∀ i, i < 8 → NearestEven (acc i + a.toNat / 2 ^ (32 * i) % 2 ^ 32 * 2 ^ (32 * i)) (acc (i + 1))) ∧
    BitsOf (acc 8) (toDouble a)

/-- For every value the sign bit of ToDouble is 0 and its exponent field is not all ones; for a value below 2^53 it is the
bit pattern of the value itself; ToDouble(0) = 0 and ToDouble(1) = 0x3FF0000000000000. (R88, stated.) -/
def Obligations.ToDoubleIsFiniteAndExactBelow2Pow53 : Prop :=
  (∀ a : Value, (toDouble a).getLsbD 63 = false ∧ ((toDouble a).extractLsb' 52 11).toNat < 2047 ∧
      (a.toNat < 2 ^ 53 → BitsOf a.toNat (toDouble a))) ∧
    toDouble 0#256 = 0x0000000000000000#64 ∧ toDouble 1#256 = 0x3FF0000000000000#64

/-- The words of the three commands decode to them. In every state MOVU copies U[a] to U[d], SETU widens S[a] to U[d], and
GETLO puts U[a] mod 2^64 into S[d]; every other register, flag and status field is unchanged. (R90, R91, R92, stated.) -/
def Obligations.MoveCommandsCopyValues : Prop :=
  (∀ d a, decode (wordDA 0x00000051#32 d a) = .ok (.movu d a)) ∧
    (∀ d a, decode (wordDA 0x00000052#32 d a) = .ok (.setu d a)) ∧
    (∀ d a, decode (wordDA 0x00000053#32 d a) = .ok (.getlo d a)) ∧
    (∀ d a (s : State), ∃ t, exec (.movu d a) s = .next t ∧ OnlyU d (s.getU a) s t) ∧
    (∀ d a (s : State), ∃ t, exec (.setu d a) s = .next t ∧ OnlyU d (BitVec.ofNat 256 (s.getS a).toNat) s t) ∧
    (∀ d a (s : State), ∃ t, exec (.getlo d a) s = .next t ∧
      OnlyS d (BitVec.ofNat 64 ((s.getU a).toNat % 2 ^ 64)) s t)

/-- The words of SLI and SLIH decode to them. In every state SLI writes the zero-extended immediate to S[d], and SLIH
writes (S[d] * 2^16 + imm16) mod 2^64; every other register, flag and status field is unchanged. (R93, R94, stated.) -/
def Obligations.ImmediateLoadsFillAScalar : Prop :=
  (∀ d imm, decode (wordDI 0x00000054#32 d imm) = .ok (.sli d imm)) ∧
    (∀ d imm, decode (wordDI 0x00000055#32 d imm) = .ok (.slih d imm)) ∧
    (∀ d imm (s : State), ∃ t, exec (.sli d imm) s = .next t ∧ OnlyS d (BitVec.ofNat 64 imm.toNat) s t) ∧
    (∀ d imm (s : State), ∃ t, exec (.slih d imm) s = .next t ∧
      OnlyS d (BitVec.ofNat 64 ((s.getS d).toNat * 2 ^ 16 + imm.toNat)) s t ∧
      BitVec.ofNat 64 ((s.getS d).toNat * 2 ^ 16 + imm.toNat) = (s.getS d).extractLsb' 0 48 ++ imm)

/-- The words of the three commands decode to them. In every state they complete with U[d] = U[a] + U[b], U[a] - U[b]
modulo 2^256, or U[a] with every bit inverted; every other register, flag and status field is unchanged, so no carry
or borrow is reported. (R97, R98, R99, stated.) -/
def Obligations.AdditiveCommandsComputeModulo2Pow256 : Prop :=
  (∀ d a b, decode (wordDAB 0x00000060#32 d a b) = .ok (.add d a b)) ∧
    (∀ d a b, decode (wordDAB 0x00000061#32 d a b) = .ok (.sub d a b)) ∧
    (∀ d a, decode (wordDA 0x00000062#32 d a) = .ok (.not d a)) ∧
    (∀ d a b (s : State), ∃ t, exec (.add d a b) s = .next t ∧ OnlyU d (s.getU a + s.getU b) s t) ∧
    (∀ d a b (s : State), ∃ t, exec (.sub d a b) s = .next t ∧ OnlyU d (s.getU a - s.getU b) s t) ∧
    (∀ d a (s : State), ∃ t, exec (.not d a) s = .next t ∧ OnlyU d (~~~ s.getU a) s t)

/-- The word of CDEC decodes to it. In every state CDEC Ud, Sa completes with U[d], FLAGS.NEG and FLAGS.OVF as the decode
rule gives them from the low 32 bits of S[a]; every other register and status field is unchanged. (R101, R107,
stated.) -/
def Obligations.CdecDecodesACompactTarget : Prop :=
  (∀ d a, decode (wordDA 0x00000070#32 d a) = .ok (.cdec d a)) ∧
    ∀ d a (s : State),
      let bits := (s.getS a).toNat % 2 ^ 32
      let M := bits % 2 ^ 23
      let E := bits / 2 ^ 24
      ∃ t, exec (.cdec d a) s = .next t ∧
        OnlyUFlags d
          (BitVec.ofNat 256 (if E ≤ 3 then M / 2 ^ (8 * (3 - E)) else M * 2 ^ (8 * (E - 3))))
          (decide (M ≠ 0 ∧ bits / 2 ^ 23 % 2 = 1))
          (decide (M ≠ 0 ∧ (E > 34 ∨ (M > 0xff ∧ E > 33) ∨ (M > 0xffff ∧ E > 32)))) s t

/-- For every compact target with mantissa M and exponent E: ovf = 1 exactly when M is not 0, E > 3 and M * 256^(E-3) is
at least 2^256; and for E > 3 the decoded value is the untruncated one exactly when ovf = 0. (R102, stated.) -/
def Obligations.OverflowFlagMeansTheTargetDoesNotFit : Prop :=
  ∀ bits : Word,
    let M := bits.toNat % 2 ^ 23
    let E := bits.toNat / 2 ^ 24
    (compactOvf bits = true ↔ M ≠ 0 ∧ E > 3 ∧ M * 256 ^ (E - 3) ≥ 2 ^ 256) ∧
    (E > 3 → (compactValue bits).toNat = M * 256 ^ (E - 3) % 2 ^ 256 ∧
      ((compactValue bits).toNat = M * 256 ^ (E - 3) ↔ compactOvf bits = false))

/-- The word of CENC decodes to it. In every state CENC Sd, Ua, Sb completes with S[d] the compact form of U[a] with
negative flag S[b][0], normalised as the encode rule says; FLAGS and every other register and status field are
unchanged. (R105, R108, stated.) -/
def Obligations.CencEncodesAValue : Prop :=
  (∀ d a b, decode (wordDAB 0x00000071#32 d a b) = .ok (.cenc d a b)) ∧
    ∀ d a b (s : State), ∃ t, exec (.cenc d a b) s = .next t ∧
      OnlyS d (BitVec.ofNat 64 (compactForm (s.getU a).toNat (decide ((s.getS b).toNat % 2 = 1)))) s t

/-- For every value v and flag n: the mantissa is below 2^24 before and at most 0x7fffff after normalisation; the sign bit
is set exactly by n with v not 0; the exponent is at most 33; the result decodes without overflow to a value at most
v, equal to v exactly when v is 0 or m * 256^k with m < 2^23; zero encodes to zero; and re-encoding a decoded encoding
gives the same bits. (R106, stated.) -/
def Obligations.CompactRoundTripIsExactOn23BitMantissas : Prop :=
  ∀ (v : Value) (n : Bool),
    (encodeExponent v ≤ 3 → encodeMantissa v = v.toNat * 2 ^ (8 * (3 - encodeExponent v))) ∧
    encodeMantissa v < 2 ^ 24 ∧
    (normalise (encodeMantissa v) (encodeExponent v)).1 ≤ 0x7fffff ∧
    mantissa (compactEncode v n) = (normalise (encodeMantissa v) (encodeExponent v)).1 ∧
    signBit (compactEncode v n) = (n && decide (v ≠ 0#256)) ∧
    exponent (compactEncode v n) ≤ 33 ∧ compactOvf (compactEncode v n) = false ∧
    compactEncode 0#256 n = 0x00000000#32 ∧ (v ≠ 0#256 → mantissa (compactEncode v n) ≠ 0) ∧
    (compactValue (compactEncode v n)).toNat ≤ v.toNat ∧
    (v ≠ 0#256 → compactNeg (compactEncode v n) = n) ∧
    (compactValue (compactEncode v n) = v ↔ v = 0#256 ∨ ∃ m k, m < 2 ^ 23 ∧ v.toNat = m * 256 ^ k) ∧
    compactEncode (compactValue (compactEncode v false)) false = compactEncode v false

/-- The word of RDFL decodes to it. In every state RDFL Sd completes with S[d] having NEG in bit 0, OVF in bit 1 and 0
elsewhere; the flags themselves and every other register and status field are unchanged. After reset it gives 0.
(47_compact.md section 4 (R109), 10_state.md section 8 (R37), derived.) -/
def Obligations.RdflCopiesTheFlags : Prop :=
  (∀ d, decode (wordD 0x00000072#32 d) = .ok (.rdfl d)) ∧
    (∀ d (s : State), ∃ t, exec (.rdfl d) s = .next t ∧
      OnlyS d (BitVec.ofNat 64 ((if s.ovf then 2 else 0) + (if s.neg then 1 else 0))) s t) ∧
    ∀ d, ∃ t, exec (.rdfl d) State.reset = .next t ∧ t.getS d = 0#64

/-- LI32, LI64, ZEROU, ZEROS and ONEU expand to the listed commands, and executing the expansion from any state completes
with the listed result and changes nothing else. (R63, stated.) -/
def Obligations.PseudoInstructionsHaveTheirResults : Prop :=
  (∀ d imm (s : State), ∃ t,
      expand (.li32 d imm) = [.sli d (imm.extractLsb' 16 16), .slih d (imm.extractLsb' 0 16)] ∧
      execList (expand (.li32 d imm)) s = .next t ∧ OnlyS d (BitVec.ofNat 64 imm.toNat) s t) ∧
    (∀ d imm (s : State), ∃ t,
      expand (.li64 d imm) = [.sli d (imm.extractLsb' 48 16), .slih d (imm.extractLsb' 32 16),
        .slih d (imm.extractLsb' 16 16), .slih d (imm.extractLsb' 0 16)] ∧
      execList (expand (.li64 d imm)) s = .next t ∧ OnlyS d imm s t) ∧
    (∀ d (s : State), ∃ t, expand (.zerou d) = [.sub d d d] ∧
      execList (expand (.zerou d)) s = .next t ∧ OnlyU d 0#256 s t) ∧
    (∀ d (s : State), ∃ t, expand (.zeros d) = [.sli d 0#16] ∧
      execList (expand (.zeros d)) s = .next t ∧ OnlyS d 0#64 s t) ∧
    (∀ d x (s : State), ∃ t, expand (.oneu d x) = [.sli x 1#16, .setu d x] ∧
      execList (expand (.oneu d x)) s = .next t ∧ t.getU d = 1#256 ∧ t.getS x = 1#64 ∧
      (∀ r, r ≠ d → t.getU r = s.getU r) ∧ (∀ r, r ≠ x → t.getS r = s.getS r) ∧
      t = { s with regsU := t.regsU, regsS := t.regsS })

/-- For all values a and b the schoolbook algorithm over 32-bit words gives (a * b) mod 2^256, and with b a single word it
gives MulWord. (42_multiply.md section 1 (R71, R72), derived.) -/
def Obligations.SchoolbookComputesTheTruncatedProduct : Prop :=
  (∀ a b : Value, schoolbookMul a b = BitVec.ofNat 256 (a.toNat * b.toNat)) ∧
    ∀ (a : Value) (w : Word), schoolbookMul a (w.setWidth 256) = mulWord a w

/-- Mul is commutative and associative, distributes over addition modulo 2^256, Mul(a, 0) = 0, Mul(a, 1) = a, Mul(2^256-1,
2^256-1) = 1, and MulWord(a, w) = Mul(a, w). (R73, stated.) -/
def Obligations.MultiplyLaws : Prop :=
  (∀ a b, mul a b = mul b a) ∧ (∀ a b c, mul (mul a b) c = mul a (mul b c)) ∧
    (∀ a b c, mul a (addValue b c) = addValue (mul a b) (mul a c)) ∧ (∀ a, mul a 0#256 = 0#256) ∧
    (∀ a, mul a 1#256 = a) ∧
    mul (BitVec.ofNat 256 (2 ^ 256 - 1)) (BitVec.ofNat 256 (2 ^ 256 - 1)) = 1#256 ∧
    ∀ a (w : Word), mulWord a w = mul a (BitVec.ofNat 256 w.toNat)

/-- For all values a and b, the long division algorithm gives a div b for b not 0 and raises for b = 0, exactly as Divide
does; the bit length of b is 0 exactly when b is 0. (43_divide.md section 1 (R77, R78), derived.) -/
def Obligations.LongDivisionIsTheFloorQuotient : Prop :=
  ∀ a b : Value,
    (b ≠ 0#256 → longDivision a b = some (BitVec.ofNat 256 (a.toNat / b.toNat))) ∧
    (b = 0#256 → longDivision a b = none) ∧ longDivision a b = divide a b ∧ (bitLength b = 0 ↔ b = 0#256)

/-- Divide(a, 1) = a; the quotient is 0 whenever BitLength(b) > BitLength(a), and whenever a < b; Divide(a, a) = 1 for a
not 0; Divide(0, b) = 0 for b not 0; the quotient q satisfies q*b <= a < (q+1)*b; division by a zero-length divisor
fails. (R79, stated.) -/
def Obligations.DivideLaws : Prop :=
  (∀ a, divide a 1#256 = some a) ∧
    (∀ a b, bitLength b > bitLength a → divide a b = some 0#256) ∧
    (∀ a b : Value, a.toNat < b.toNat → divide a b = some 0#256) ∧
    (∀ a, a ≠ 0#256 → divide a a = some 1#256) ∧ (∀ b, b ≠ 0#256 → divide 0#256 b = some 0#256) ∧
    (∀ a b q, divide a b = some q → q.toNat * b.toNat ≤ a.toNat ∧ a.toNat < (q.toNat + 1) * b.toNat) ∧
    ∀ a b, bitLength b = 0 → divide a b = none

/-- For s < 256 ShiftRight(ShiftLeft(a, s), s) = a mod 2^(256-s) and ShiftLeft(ShiftRight(a, s), s) = a - (a mod 2^s); for
all n and m two shifts in one direction are the shift by n + m; a shift by 0 is the identity. (R65, stated.) -/
def Obligations.ShiftLaws : Prop :=
  (∀ (a : Value) s, s < 256 →
      (shiftRight (shiftLeft a s) s).toNat = a.toNat % 2 ^ (256 - s) ∧
      (shiftLeft (shiftRight a s) s).toNat = a.toNat - a.toNat % 2 ^ s) ∧
    (∀ (a : Value) n m, shiftLeft (shiftLeft a n) m = shiftLeft a (n + m) ∧
      shiftRight (shiftRight a n) m = shiftRight a (n + m)) ∧
    ∀ a : Value, shiftLeft a 0 = a ∧ shiftRight a 0 = a

/-- Sub(a, a) = 0; Add(a, Sub(b, a)) = b; Sub(0, 1) = 2^256 - 1 = Not(0); Add(Not(a), 1) = Sub(0, a); Not(Not(a)) = a; for
0 < T < 2^256 - 1 Divide(Not(T), Add(T, 1)) plus 1 is 2^256 div (T + 1), and for T = 0 it is that modulo 2^256 (log
19: the rule does not except T = 0, where the true quotient 2^256 fits no value); for T = 2^256 - 1 Add(T, 1) = 0 and
the division raises. (46_addsub.md section 1 (R95, R96), 43_divide.md R78, derived.) -/
def Obligations.AdditiveLawsAndBlockProof : Prop :=
  (∀ a, subValue a a = 0#256) ∧ (∀ a b, addValue a (subValue b a) = b) ∧
    (subValue 0#256 1#256).toNat = 2 ^ 256 - 1 ∧ subValue 0#256 1#256 = notValue 0#256 ∧
    (∀ a, addValue (notValue a) 1#256 = subValue 0#256 a) ∧ (∀ a, notValue (notValue a) = a) ∧
    (∀ T : Value, T.toNat < 2 ^ 256 - 1 → ∃ q, divide (notValue T) (addValue T 1#256) = some q ∧
      (addValue q 1#256).toNat = 2 ^ 256 / (T.toNat + 1) % 2 ^ 256 ∧
      (T ≠ 0#256 → (addValue q 1#256).toNat = 2 ^ 256 / (T.toNat + 1))) ∧
    ∀ T : Value, T.toNat = 2 ^ 256 - 1 → addValue T 1#256 = 0#256 ∧
      divide (notValue T) (addValue T 1#256) = none

/-- For every command and state: after it completes, every byte of the window outside the destination register reads as
before, except that CDEC may change the FLAGS word and DIV the STATUS and ERRCMD words. (20_memory.md section 2 (R39
to R42), 60_exceptions.md R113, R114, 10_state.md R24, derived.) -/
def Obligations.CommandsLeaveOtherWindowBytesAlone : Prop :=
  ∀ (i : Instr) (s t : State) (off : Offset), exec i s = .next t → ¬ inDestination i off →
    (∀ d a, i = .cdec d a → ¬ (0x288 ≤ off.toNat ∧ off.toNat < 0x28C)) →
    (∀ d a b, i = .div d a b →
      ¬ (0x284 ≤ off.toNat ∧ off.toNat < 0x288) ∧ ¬ (0x290 ≤ off.toNat ∧ off.toNat < 0x294)) →
    windowByte off t = windowByte off s

/-- For every step from any state: NEG and OVF are as before, or a CDEC is pending and this step is its completion, or the
unit's whole state is the reset state. (10_state.md section 5 (R24), derived.) -/
def Obligations.FlagsAreWrittenByCdecOrResetOnly : Prop :=
  ∀ s t : State, step s = .next t →
    (t.neg = s.neg ∧ t.ovf = s.ovf) ∨
    (∃ w d a, s.pending = some w ∧ CompletesNext s ∧ decode w = .ok (.cdec d a)) ∨ SameUnit State.reset t

/-- For every step from any state: LASTCMD is as before, or the host wrote a word v to CMD with ERR = 0 and LASTCMD and
PENDING are v, or the unit's whole state is the reset state. (10_state.md section 6 (R29), derived.) -/
def Obligations.LastcmdIsWrittenAtAcceptanceOnly : Prop :=
  ∀ s t : State, step s = .next t →
    t.lastcmd = s.lastcmd ∨
    (∃ v rest, s.inputs = .access (memWrite 0x280#10 v) :: rest ∧ s.err = false ∧ t.lastcmd = v ∧ t.pending = some v) ∨
    SameUnit State.reset t

/-- If the pending word decodes to the command i, exec of i gives the next state t, and the completion comes now, then the
step gives t with PENDING none and BUSY 0 (and, in the model's own field, no STATUS read left to wait for: log 14).
(30_encoding.md section 4 (R61), derived.) -/
def Obligations.StepRunsTheDecodedCommand : Prop :=
  ∀ (s t : State) (w : Word) (i : Instr), s.pending = some w → CompletesNext s → decode w = .ok i →
    exec i s = .next t → step s = .next { t with pending := none, busy := false, wait := 0 }

/-- When the pending word is illegal, or is a DIV whose divisor is 0, and the completion comes now, the step sets ERR = 1,
ERRCODE = 2 or 1, ERRCMD = the word, PENDING = none and BUSY = 0, and changes nothing else of the unit. (R112, R114,
stated.) -/
def Obligations.ErrorEntryIsPrecise : Prop :=
  (∀ (s : State) (w : Word) (e : Illegal), s.pending = some w → CompletesNext s → decode w = .error e →
      ∃ t, step s = .next t ∧ t.inputs = s.inputs ∧ t.replies = s.replies ∧
        SameUnit { s with err := true, errcode := 2#4, errcmd := w, pending := none, busy := false } t) ∧
    ∀ (s : State) (w : Word) (d a b : UReg), s.pending = some w → CompletesNext s → decode w = .ok (.div d a b) →
      s.getU b = 0#256 →
      ∃ t, step s = .next t ∧ t.inputs = s.inputs ∧ t.replies = s.replies ∧
        SameUnit { s with err := true, errcode := 1#4, errcmd := w, pending := none, busy := false } t

/-- From a state of the invariant with ERR = 1, a step leaves no command pending, and ERR, ERRCODE and ERRCMD are as
before or all cleared. An illegal word raises IllegalCommand in every state, in particular a DIV word with a nonzero
SBZ bit whatever its divisor. (R115, stated.) -/
def Obligations.FirstErrorIsKept : Prop :=
  (∀ s t : State, s.Inv → s.err = true → step s = .next t →
      t.pending = none ∧
      ((t.err = true ∧ t.errcode = s.errcode ∧ t.errcmd = s.errcmd) ∨
        (t.err = false ∧ t.errcode = 0#4 ∧ t.errcmd = 0#32))) ∧
    ∀ (w : Word) (s : State),
      ((∃ e, decode w = .error e) ∨ (w.toNat % 2 ^ 8 = 0x30 ∧ w.toNat / 2 ^ 20 ≠ 0)) →
      executeWord w s = .next { s with err := true, errcode := 2#4, errcmd := w }

/-- In a state in which the host may make any access, its write of v to CMD changes nothing but the host's position when
ERR = 1; when ERR = 0 it sets LASTCMD = v, PENDING = v and BUSY = 1 and changes nothing else of the unit. (R60,
stated.) -/
def Obligations.CmdWriteIsAcceptedUnlessAnErrorIsRecorded : Prop :=
  ∀ (s : State) (v : Word) (rest : List HostEvent), Idle s → s.inputs = .access (memWrite 0x280#10 v) :: rest →
    (s.err = true → step s = .next { s with inputs := rest }) ∧
    (s.err = false → ∃ t, step s = .next t ∧ SameUnit { s with lastcmd := v, pending := some v, busy := true } t ∧
      t.inputs = rest ∧ t.replies = s.replies)

/-- The model's choice (log 2, log 3): a write of CMD with ERR = 0, in a state in which the host may make any access,
opens the interval of the BUSY duty and sets the number of STATUS reads that will return BUSY = 1 to the next draw of
the free latency, which the statement leaves open; the count of draws grows by one. (70_reset_and_hazards.md R127,
R131, derived.) -/
def Obligations.AcceptedCommandDrawsAFreeLatency : Prop :=
  ∀ (s : State) (v : Word) (rest : List HostEvent), Idle s → s.inputs = .access (memWrite 0x280#10 v) :: rest →
    s.err = false → ∃ t, step s = .next t ∧ t.awaiting = true ∧ t.wait = Config.latency s.accepted ∧
      t.accepted = s.accepted + 1

/-- With ERR = 1, a write of any word to CMD followed by a write of CLR_ERR to CTRL leaves the state as it was but for
ERR, ERRCODE and ERRCMD being 0: nothing is pending and LASTCMD is unchanged. (R116, stated.) -/
def Obligations.DiscardedCommandIsNotReplayed : Prop :=
  ∀ (s : State) (v : Word) (rest : List HostEvent), Idle s → s.err = true →
    s.inputs = .access (memWrite 0x280#10 v) :: .access (memWrite 0x28C#10 1#32) :: rest →
    core.run 2 s = .next { s with inputs := rest, err := false, errcode := 0#4, errcmd := 0#32 }

/-- In a state in which the host may make any access: a write of CTRL with bit 1 set gives the unit its reset state; with
bit 1 clear and bit 0 set it clears ERR, ERRCODE and ERRCMD and nothing else; with both clear it changes nothing. A
read of CTRL returns 0 and changes nothing of the unit. (R30, stated.) -/
def Obligations.CtrlWriteActsAndReadsZero : Prop :=
  ∀ (s : State) (v : Word) (rest : List HostEvent), Idle s →
    (s.inputs = .access (memWrite 0x28C#10 v) :: rest →
      (v.getLsbD 1 = true → ∃ t, step s = .next t ∧ SameUnit State.reset t ∧ t.inputs = rest ∧ t.replies = s.replies) ∧
      (v.getLsbD 1 = false → v.getLsbD 0 = true →
        step s = .next { s with inputs := rest, err := false, errcode := 0#4, errcmd := 0#32 }) ∧
      (v.getLsbD 1 = false → v.getLsbD 0 = false → step s = .next { s with inputs := rest })) ∧
    (s.inputs = .access (memRead 0x28C#10) :: rest →
      step s = .next { s with inputs := rest, replies := s.replies ++ [0#32] })

/-- In State.reset every U and S register is 0, both flags, BUSY, ERR, ERRCODE, ERRCMD and LASTCMD are 0 and PENDING is
none; ID and VERSION are their constants. (R37, stated.) -/
def Obligations.ResetStateHoldsTheResetValues : Prop :=
  (∀ r, State.reset.getU r = 0#256) ∧ (∀ r, State.reset.getS r = 0#64) ∧ State.reset.neg = false ∧
    State.reset.ovf = false ∧ State.reset.busy = false ∧ State.reset.err = false ∧ State.reset.errcode = 0#4 ∧
    State.reset.errcmd = 0#32 ∧ State.reset.lastcmd = 0#32 ∧ State.reset.pending = none ∧
    Config.idValue = 0x55323536#32 ∧ Config.versionValue = 0x00000001#32

/-- A power-on reset that comes before a pending completion, or with nothing pending, gives the unit its reset state; in a
state in which the host may make any access it has exactly the effect of a write of CTRL with bit 1 set. (R125,
stated.) -/
def Obligations.BothResetsHaveTheSameEffect : Prop :=
  (∀ (s : State) (rest : List HostEvent), HostFirst s → s.inputs = .powerOnReset :: rest →
      ∃ t, step s = .next t ∧ SameUnit State.reset t ∧ t.inputs = rest ∧ t.replies = s.replies) ∧
    ∀ (s : State) (rest : List HostEvent) (v : Word), Idle s → v.getLsbD 1 = true →
      step { s with inputs := .powerOnReset :: rest } =
        step { s with inputs := .access (memWrite 0x28C#10 v) :: rest }

/-- In every state the byte at offset 0x20*i + k is U[i][8k+7:8k]. In a state in which the host may make any access, a
read at 0x20*i + 4*j returns word j of U[i], and a write there replaces exactly that word and changes nothing else.
(R40, stated.) -/
def Obligations.ValueRegistersInTheWindow : Prop :=
  (∀ (s : State) (i : UReg) (k : Nat), k < 32 →
      windowByte (BitVec.ofNat 10 (0x20 * i.toNat + k)) s = .ok ((s.getU i).extractLsb' (8 * k) 8)) ∧
    (∀ (s : State) (i : UReg) (j : Nat) (rest : List HostEvent), j < 8 → Idle s →
      s.inputs = .access (memRead (BitVec.ofNat 10 (0x20 * i.toNat + 4 * j))) :: rest →
      step s = .next { s with
        inputs := rest, replies := s.replies ++ [BitVec.ofNat 32 ((s.getU i).toNat / 2 ^ (32 * j) % 2 ^ 32)] }) ∧
    ∀ (s : State) (i : UReg) (j : Nat) (v : Word) (rest : List HostEvent), j < 8 → Idle s →
      s.inputs = .access (memWrite (BitVec.ofNat 10 (0x20 * i.toNat + 4 * j)) v) :: rest →
      ∃ t, step s = .next t ∧
        OnlyU i (BitVec.ofNat 256 ((s.getU i).toNat - (s.getU i).toNat / 2 ^ (32 * j) % 2 ^ 32 * 2 ^ (32 * j)
          + v.toNat * 2 ^ (32 * j))) { s with inputs := rest } t

/-- For every value, words j and k below 8 and word x: after word j is replaced by x, word j is x and every other word k
is as before. (20_memory.md section 2 (R40), derived.) -/
def Obligations.ValueWordWriteKeepsTheOtherWords : Prop :=
  ∀ (v : Value) (j k : Nat) (x : Word), j < 8 → k < 8 →
    limb (setLimb v j x) k = if k = j then x else limb v k

/-- In every state the byte at offset 0x200 + 8*i + k is S[i][8k+7:8k]. In a state in which the host may make any access,
reads at 0x200 + 8*i and 0x204 + 8*i return the low and high half of S[i], and a write there replaces exactly that
half and changes nothing else. (R41, stated.) -/
def Obligations.ScalarRegistersInTheWindow : Prop :=
  (∀ (s : State) (i : SReg) (k : Nat), k < 8 →
      windowByte (BitVec.ofNat 10 (0x200 + 8 * i.toNat + k)) s = .ok ((s.getS i).extractLsb' (8 * k) 8)) ∧
    (∀ (s : State) (i : SReg) (rest : List HostEvent), Idle s →
      (s.inputs = .access (memRead (BitVec.ofNat 10 (0x200 + 8 * i.toNat))) :: rest →
        step s = .next { s with inputs := rest, replies := s.replies ++ [(s.getS i).extractLsb' 0 32] }) ∧
      (s.inputs = .access (memRead (BitVec.ofNat 10 (0x204 + 8 * i.toNat))) :: rest →
        step s = .next { s with inputs := rest, replies := s.replies ++ [(s.getS i).extractLsb' 32 32] })) ∧
    ∀ (s : State) (i : SReg) (v : Word) (rest : List HostEvent), Idle s →
      (s.inputs = .access (memWrite (BitVec.ofNat 10 (0x200 + 8 * i.toNat)) v) :: rest →
        ∃ t, step s = .next t ∧ OnlyS i ((s.getS i).extractLsb' 32 32 ++ v) { s with inputs := rest } t) ∧
      (s.inputs = .access (memWrite (BitVec.ofNat 10 (0x204 + 8 * i.toNat)) v) :: rest →
        ∃ t, step s = .next t ∧ OnlyS i (v ++ (s.getS i).extractLsb' 0 32) { s with inputs := rest } t)

/-- In a state in which the host may make any access, a write of any value to a read-only register changes nothing but the
host's position. (R33, stated.) -/
def Obligations.ReadOnlyRegistersIgnoreWrites : Prop :=
  ∀ (s : State) (off : Offset) (v : Word) (rest : List HostEvent), Idle s →
    off = 0x284#10 ∨ off = 0x288#10 ∨ off = 0x290#10 ∨ off = 0x294#10 ∨ off = 0x298#10 →
    s.inputs = .access (memWrite off v) :: rest → step s = .next { s with inputs := rest }

/-- In every state the window reads LASTCMD at 0x280, BUSY + 2*ERR + 16*ERRCODE at 0x284, NEG + 2*OVF at 0x288, ERRCMD at
0x290, 0x55323536 at 0x294 and 1 at 0x298. (10_state.md sections 5 and 6 (R24, R26, R28, R29, R31, R32), derived.) -/
def Obligations.StatusFlagsAndConstantsRead : Prop :=
  ∀ s : State, windowWord 0x280#10 s = .ok s.lastcmd ∧
    windowWord 0x284#10 s =
      .ok (BitVec.ofNat 32 (s.errcode.toNat * 16 + (if s.err then 2 else 0) + (if s.busy then 1 else 0))) ∧
    windowWord 0x288#10 s = .ok (BitVec.ofNat 32 ((if s.ovf then 2 else 0) + (if s.neg then 1 else 0))) ∧
    windowWord 0x290#10 s = .ok s.errcmd ∧ windowWord 0x294#10 s = .ok 0x55323536#32 ∧
    windowWord 0x298#10 s = .ok 0x00000001#32

/-- From any state in which the host's next event comes first and is a read: if the step gives a next state, the unit's
own state is unchanged and exactly one value has been delivered, the one the window holds at that offset.
(20_memory.md section 3 (R46, R47), derived.) -/
def Obligations.ReadsHaveNoSideEffectOnTheUnit : Prop :=
  ∀ (s t : State) (a : Access) (rest : List HostEvent), HostFirst s → s.inputs = .access a :: rest →
    a.kind = .read → step s = .next t →
    SameUnit s t ∧ t.inputs = rest ∧ ∃ v, windowWord a.off s = .ok v ∧ t.replies = s.replies ++ [v]

/-- From any state in which the host's next event comes first and is an access, the step refuses it exactly when it is a
second agent's, not 32 bits wide, not at a multiple of 4, at 0x29C or above, or made in the interval of the BUSY duty
(log 3) and no read of STATUS. (70_reset_and_hazards.md sections 2 (R127, R129), 20_memory.md R43, R44,
60_exceptions.md R122, derived.) -/
def Obligations.AccessesAreRefusedExactlyOnTheGroundsListed : Prop :=
  ∀ (s : State) (a : Access) (rest : List HostEvent), HostFirst s → s.inputs = .access a :: rest →
    ((∃ r, step s = .refused r) ↔
      a.agent = .other ∨ a.bytes ≠ 4 ∨ a.off.toNat % 4 ≠ 0 ∨ 0x29C ≤ a.off.toNat ∨
      ((s.awaiting = true ∨ s.busy = true) ∧ ¬ (a.off = 0x284#10 ∧ a.kind = .read)))

/-- State.reset satisfies the invariant: BUSY exactly with PENDING, the error state consistent, and a pending word the
last accepted one. (10_state.md R34, R37, 60_exceptions.md R115, derived.) -/
def Obligations.InvariantHoldsAtReset : Prop :=
  State.reset.Inv

/-- For every state that satisfies the invariant (BUSY is 1 exactly when a command is pending; while ERR = 0 ERRCODE and
ERRCMD are 0; while ERR = 1 ERRCMD is the last accepted command and ERRCODE is the error that word raises; a pending
word is the last accepted one with no error recorded), if a step gives a next state, that state satisfies it too.
(10_state.md R26 to R29, R34, 30_encoding.md R60, R61, 60_exceptions.md R115, R116, derived.) -/
def Obligations.EveryStepKeepsTheInvariant : Prop :=
  ∀ s t : State, s.Inv → step s = .next t → t.Inv

/-- From every state that satisfies the invariant, if the rest of the host's program makes only meaningful accesses and
after each write of CMD reads STATUS only until a WaitIdle, then every number of steps has a next state: no access is
refused. The interval is log 3, the WaitIdle event log 5. The program may make any meaningful access after a power-on
reset, also one that fell on a pending command: that a reset ends the interval is the model's deduction (log 6,
DEDUCED, unsafe), which the letter of R127 does not say. (70_reset_and_hazards.md section 2 (R127, R128, R129),
derived.) -/
def Obligations.DutifulHostIsNeverRefused : Prop :=
  ∀ (s : State) (k : Nat), s.Inv → keepsDuty s.awaiting s.inputs = true → SafeFor k s

/-- From a state with the word w pending and BUSY = 1 and the host in WaitIdle, after wait + 2 steps the loop has ended:
the command has been executed from the state as it was, PENDING is none, BUSY is 0, the BUSY duty is over, and the
reads returned the busy status wait times and then the final one. The latency is a free value (log 2) and finite by
the fairness the rule assumes (log 15): the statement holds for every value of the field wait. The WaitIdle event is
log 5. (70_reset_and_hazards.md section 2 (R128), 30_encoding.md R61, derived.) -/
def Obligations.WaitIdleReturnsAfterTheCompletion : Prop :=
  ∀ (s : State) (w : Word) (rest : List HostEvent), s.pending = some w → s.busy = true →
    s.inputs = .waitIdle :: rest →
    ∃ t, executeWord w s = .next t ∧
      core.run (s.wait + 2) s = .next { endCommand t with
        inputs := rest, awaiting := false,
        replies := s.replies ++ List.replicate s.wait (statusWord s) ++ [statusWord (endCommand t)] }

/-- For two states with the same unit record and any host's sides: executing a word from one gives the same record as from
the other and leaves each host's side as it was; every offset of the window reads the same; and a write of any
register of the window leaves the same record. (That the host's side stands in State beside the record is log 1.)
(10_state.md section 1 (R20), 20_memory.md section 3 (R47), 30_encoding.md R60, R61, derived.) -/
def Obligations.UnitActsOnTheRecordOnly : Prop :=
  ∀ s s' : State, SameUnit s s' →
    (∀ w, ∃ t, executeWord w s = .next t ∧ t.toHostSide = s.toHostSide ∧
      executeWord w s' = .next { s' with toUnitState := t.toUnitState }) ∧
    (∀ off, windowWord off s' = windowWord off s) ∧
    ∀ r v, SameUnit (writeReg r v s) (writeReg r v s')

/-- The model's choice (log 2): for every step from any state, either the count of draws is as before and the number of
STATUS reads that will return BUSY = 1 has not grown, or the host wrote a word v to CMD with ERR = 0, PENDING is v,
that number is the draw at the old count, and the count has grown by one. So no step lowers the count, and no draw is
made twice. (70_reset_and_hazards.md R131, 30_encoding.md R60, derived.) -/
def Obligations.NoLatencyIsDrawnTwice : Prop :=
  ∀ s t : State, step s = .next t →
    (t.accepted = s.accepted ∧ t.wait ≤ s.wait) ∨
    ∃ v rest, s.inputs = .access (memWrite 0x280#10 v) :: rest ∧ s.err = false ∧ t.pending = some v ∧
      t.wait = Config.latency s.accepted ∧ t.accepted = s.accepted + 1
end

