-- ==== Sys2Proof/Laws/Decode.lean ====
section
/-! SUPPORT. The fields of a word as numbers, the fields of an encoded word format by format, and what the parts of the
decoder can answer. -/

namespace Sys2Proof.Laws

/-! ### Fields as numbers -/

theorem fieldOp_toNat (w : Word) : (fieldOp w).toNat = w.toNat % 2 ^ 8 := by simp [fieldOp, BitVec.extractLsb'_toNat]

theorem fieldRd_toNat (w : Word) : (fieldRd w).toNat = w.toNat / 2 ^ 8 % 2 ^ 4 := by
  simp [fieldRd, BitVec.extractLsb'_toNat, Nat.shiftRight_eq_div_pow]

theorem fieldRa_toNat (w : Word) : (fieldRa w).toNat = w.toNat / 2 ^ 12 % 2 ^ 4 := by
  simp [fieldRa, BitVec.extractLsb'_toNat, Nat.shiftRight_eq_div_pow]

theorem fieldRb_toNat (w : Word) : (fieldRb w).toNat = w.toNat / 2 ^ 16 % 2 ^ 4 := by
  simp [fieldRb, BitVec.extractLsb'_toNat, Nat.shiftRight_eq_div_pow]

theorem fieldImm_toNat (w : Word) : (fieldImm w).toNat = w.toNat / 2 ^ 16 % 2 ^ 16 := by
  simp [fieldImm, BitVec.extractLsb'_toNat, Nat.shiftRight_eq_div_pow]

theorem sbzZero_rrr (w : Word) : sbzZero .rrr w = true ↔ w.toNat / 2 ^ 20 = 0 := by
  have := w.isLt
  simp [sbzZero, ← BitVec.toNat_inj, BitVec.extractLsb'_toNat, Nat.shiftRight_eq_div_pow]
  omega

theorem sbzZero_rr (w : Word) : sbzZero .rr w = true ↔ w.toNat / 2 ^ 16 = 0 := by
  have := w.isLt
  simp [sbzZero, ← BitVec.toNat_inj, BitVec.extractLsb'_toNat, Nat.shiftRight_eq_div_pow]
  omega

theorem sbzZero_ri (w : Word) : sbzZero .ri w = true := rfl

theorem sbzZero_di (w : Word) : sbzZero .di w = true ↔ w.toNat / 2 ^ 12 % 2 ^ 4 = 0 := by
  simp [sbzZero, ← BitVec.toNat_inj, BitVec.extractLsb'_toNat, Nat.shiftRight_eq_div_pow]

theorem sbzZero_d (w : Word) : sbzZero .d w = true ↔ w.toNat / 2 ^ 12 = 0 := by
  have := w.isLt
  simp [sbzZero, ← BitVec.toNat_inj, BitVec.extractLsb'_toNat, Nat.shiftRight_eq_div_pow]
  omega

theorem reg_lt (r : BitVec 4) : r.toNat < 16 := r.isLt

theorem imm_lt (i : Imm16) : i.toNat < 65536 := i.isLt

theorem op_lt (m : Mnemonic) : m.op.toNat < 256 := m.op.isLt

/-! ### Format RRR -/

theorem encodeRRR_toNat (m : Mnemonic) (d a b : BitVec 4) :
    (encodeRRR m d a b).toNat = b.toNat * 2 ^ 16 + a.toNat * 2 ^ 12 + d.toNat * 2 ^ 8 + m.op.toNat := by
  have := op_lt m
  have := reg_lt d
  have := reg_lt a
  have := reg_lt b
  simp only [encodeRRR, BitVec.toNat_ofNat]
  omega

@[simp] theorem fieldOp_encodeRRR (m : Mnemonic) (d a b : BitVec 4) : fieldOp (encodeRRR m d a b) = m.op := by
  have := op_lt m
  have := reg_lt d
  have := reg_lt a
  have := reg_lt b
  apply BitVec.eq_of_toNat_eq
  rw [fieldOp_toNat, encodeRRR_toNat]
  omega

@[simp] theorem fieldRd_encodeRRR (m : Mnemonic) (d a b : BitVec 4) : fieldRd (encodeRRR m d a b) = d := by
  have := op_lt m
  have := reg_lt d
  have := reg_lt a
  have := reg_lt b
  apply BitVec.eq_of_toNat_eq
  rw [fieldRd_toNat, encodeRRR_toNat]
  omega

@[simp] theorem fieldRa_encodeRRR (m : Mnemonic) (d a b : BitVec 4) : fieldRa (encodeRRR m d a b) = a := by
  have := op_lt m
  have := reg_lt d
  have := reg_lt a
  have := reg_lt b
  apply BitVec.eq_of_toNat_eq
  rw [fieldRa_toNat, encodeRRR_toNat]
  omega

@[simp] theorem fieldRb_encodeRRR (m : Mnemonic) (d a b : BitVec 4) : fieldRb (encodeRRR m d a b) = b := by
  have := op_lt m
  have := reg_lt d
  have := reg_lt a
  have := reg_lt b
  apply BitVec.eq_of_toNat_eq
  rw [fieldRb_toNat, encodeRRR_toNat]
  omega

@[simp] theorem sbzZero_encodeRRR (m : Mnemonic) (d a b : BitVec 4) : sbzZero .rrr (encodeRRR m d a b) = true := by
  have := op_lt m
  have := reg_lt d
  have := reg_lt a
  have := reg_lt b
  rw [sbzZero_rrr, encodeRRR_toNat]
  omega

/-! ### Format RR -/

theorem encodeRR_toNat (m : Mnemonic) (d a : BitVec 4) :
    (encodeRR m d a).toNat = a.toNat * 2 ^ 12 + d.toNat * 2 ^ 8 + m.op.toNat := by
  have := op_lt m
  have := reg_lt d
  have := reg_lt a
  simp only [encodeRR, BitVec.toNat_ofNat]
  omega

@[simp] theorem fieldOp_encodeRR (m : Mnemonic) (d a : BitVec 4) : fieldOp (encodeRR m d a) = m.op := by
  have := op_lt m
  have := reg_lt d
  have := reg_lt a
  apply BitVec.eq_of_toNat_eq
  rw [fieldOp_toNat, encodeRR_toNat]
  omega

@[simp] theorem fieldRd_encodeRR (m : Mnemonic) (d a : BitVec 4) : fieldRd (encodeRR m d a) = d := by
  have := op_lt m
  have := reg_lt d
  have := reg_lt a
  apply BitVec.eq_of_toNat_eq
  rw [fieldRd_toNat, encodeRR_toNat]
  omega

@[simp] theorem fieldRa_encodeRR (m : Mnemonic) (d a : BitVec 4) : fieldRa (encodeRR m d a) = a := by
  have := op_lt m
  have := reg_lt d
  have := reg_lt a
  apply BitVec.eq_of_toNat_eq
  rw [fieldRa_toNat, encodeRR_toNat]
  omega

@[simp] theorem sbzZero_encodeRR (m : Mnemonic) (d a : BitVec 4) : sbzZero .rr (encodeRR m d a) = true := by
  have := op_lt m
  have := reg_lt d
  have := reg_lt a
  rw [sbzZero_rr, encodeRR_toNat]
  omega

/-! ### Format RI -/

theorem encodeRI_toNat (m : Mnemonic) (d a : BitVec 4) (imm : Imm16) :
    (encodeRI m d a imm).toNat = imm.toNat * 2 ^ 16 + a.toNat * 2 ^ 12 + d.toNat * 2 ^ 8 + m.op.toNat := by
  have := op_lt m
  have := reg_lt d
  have := reg_lt a
  have := imm_lt imm
  simp only [encodeRI, BitVec.toNat_ofNat]
  omega

@[simp] theorem fieldOp_encodeRI (m : Mnemonic) (d a : BitVec 4) (imm : Imm16) : fieldOp (encodeRI m d a imm) = m.op := by
  have := op_lt m
  have := reg_lt d
  have := reg_lt a
  have := imm_lt imm
  apply BitVec.eq_of_toNat_eq
  rw [fieldOp_toNat, encodeRI_toNat]
  omega

@[simp] theorem fieldRd_encodeRI (m : Mnemonic) (d a : BitVec 4) (imm : Imm16) : fieldRd (encodeRI m d a imm) = d := by
  have := op_lt m
  have := reg_lt d
  have := reg_lt a
  have := imm_lt imm
  apply BitVec.eq_of_toNat_eq
  rw [fieldRd_toNat, encodeRI_toNat]
  omega

@[simp] theorem fieldRa_encodeRI (m : Mnemonic) (d a : BitVec 4) (imm : Imm16) : fieldRa (encodeRI m d a imm) = a := by
  have := op_lt m
  have := reg_lt d
  have := reg_lt a
  have := imm_lt imm
  apply BitVec.eq_of_toNat_eq
  rw [fieldRa_toNat, encodeRI_toNat]
  omega

@[simp] theorem fieldImm_encodeRI (m : Mnemonic) (d a : BitVec 4) (imm : Imm16) : fieldImm (encodeRI m d a imm) = imm := by
  have := op_lt m
  have := reg_lt d
  have := reg_lt a
  have := imm_lt imm
  apply BitVec.eq_of_toNat_eq
  rw [fieldImm_toNat, encodeRI_toNat]
  omega

/-! ### Format DI -/

theorem encodeDI_toNat (m : Mnemonic) (d : BitVec 4) (imm : Imm16) :
    (encodeDI m d imm).toNat = imm.toNat * 2 ^ 16 + d.toNat * 2 ^ 8 + m.op.toNat := by
  have := op_lt m
  have := reg_lt d
  have := imm_lt imm
  simp only [encodeDI, BitVec.toNat_ofNat]
  omega

@[simp] theorem fieldOp_encodeDI (m : Mnemonic) (d : BitVec 4) (imm : Imm16) : fieldOp (encodeDI m d imm) = m.op := by
  have := op_lt m
  have := reg_lt d
  have := imm_lt imm
  apply BitVec.eq_of_toNat_eq
  rw [fieldOp_toNat, encodeDI_toNat]
  omega

@[simp] theorem fieldRd_encodeDI (m : Mnemonic) (d : BitVec 4) (imm : Imm16) : fieldRd (encodeDI m d imm) = d := by
  have := op_lt m
  have := reg_lt d
  have := imm_lt imm
  apply BitVec.eq_of_toNat_eq
  rw [fieldRd_toNat, encodeDI_toNat]
  omega

@[simp] theorem fieldImm_encodeDI (m : Mnemonic) (d : BitVec 4) (imm : Imm16) : fieldImm (encodeDI m d imm) = imm := by
  have := op_lt m
  have := reg_lt d
  have := imm_lt imm
  apply BitVec.eq_of_toNat_eq
  rw [fieldImm_toNat, encodeDI_toNat]
  omega

@[simp] theorem sbzZero_encodeDI (m : Mnemonic) (d : BitVec 4) (imm : Imm16) : sbzZero .di (encodeDI m d imm) = true := by
  have := op_lt m
  have := reg_lt d
  have := imm_lt imm
  rw [sbzZero_di, encodeDI_toNat]
  omega

/-! ### Format D -/

theorem encodeD_toNat (m : Mnemonic) (d : BitVec 4) :
    (encodeD m d).toNat = d.toNat * 2 ^ 8 + m.op.toNat := by
  have := op_lt m
  have := reg_lt d
  simp only [encodeD, BitVec.toNat_ofNat]
  omega

@[simp] theorem fieldOp_encodeD (m : Mnemonic) (d : BitVec 4) : fieldOp (encodeD m d) = m.op := by
  have := op_lt m
  have := reg_lt d
  apply BitVec.eq_of_toNat_eq
  rw [fieldOp_toNat, encodeD_toNat]
  omega

@[simp] theorem fieldRd_encodeD (m : Mnemonic) (d : BitVec 4) : fieldRd (encodeD m d) = d := by
  have := op_lt m
  have := reg_lt d
  apply BitVec.eq_of_toNat_eq
  rw [fieldRd_toNat, encodeD_toNat]
  omega

@[simp] theorem sbzZero_encodeD (m : Mnemonic) (d : BitVec 4) : sbzZero .d (encodeD m d) = true := by
  have := op_lt m
  have := reg_lt d
  rw [sbzZero_d, encodeD_toNat]
  omega

/-! ### The decoder's parts -/

/-- The must-be-zero check answers a command exactly when the SBZ bits are zero, and then the command it was given. -/
theorem checked_eq_ok (f : Format) (w : Word) (i j : Instr) :
    checked f w i = .ok j ↔ sbzZero f w = true ∧ i = j := by
  unfold checked
  split <;> simp_all

/-- Every command's own assembler line passes the checks of R62. -/
theorem instr_wellFormed (i : Instr) : i.WellFormed := by
  cases i <;>
    simp [Instr.WellFormed, AsmLine.WellFormed, AsmLine.check, Instr.asm, Instr.mnemonic, Instr.operands,
      Mnemonic.operandTypes, checkOperands, AsmOperand.check, Except.toOption, reg_lt, imm_lt]

end Sys2Proof.Laws
end

