-- ==== Sys2Proof/Laws/Numbers.lean ====
section
/-! SUPPORT. Parts of words, shifts and the fields of a compact target as plain numbers. -/

namespace Sys2Proof.Laws

open Sys2Proof.Machine

theorem limb_toNat (v : Value) (j : Nat) : (limb v j).toNat = v.toNat / 2 ^ (32 * j) % 2 ^ 32 := by
  simp [limb, BitVec.extractLsb'_toNat, Nat.shiftRight_eq_div_pow]

theorem lowHalf_toNat (v : Scalar) : (lowHalf v).toNat = v.toNat % 2 ^ 32 := by
  simp [lowHalf, BitVec.extractLsb'_toNat]

theorem highHalf_toNat (v : Scalar) : (highHalf v).toNat = v.toNat / 2 ^ 32 := by
  have := v.isLt
  simp [highHalf, BitVec.extractLsb'_toNat, Nat.shiftRight_eq_div_pow]
  omega

/-- ShiftLeft is one formula for every amount (R64). -/
theorem shiftLeft_toNat (a : Value) (n : Nat) : (shiftLeft a n).toNat = a.toNat * 2 ^ n % 2 ^ 256 := by
  unfold shiftLeft
  split
  · simp
  next h =>
    have hd : 2 ^ 256 ∣ a.toNat * 2 ^ n := Dvd.dvd.mul_left (pow_dvd_pow 2 (by omega)) _
    rw [Nat.mod_eq_zero_of_dvd hd]
    rfl

/-- ShiftRight is one formula for every amount (R64). -/
theorem shiftRight_toNat (a : Value) (n : Nat) : (shiftRight a n).toNat = a.toNat / 2 ^ n := by
  have ha := a.isLt
  unfold shiftRight
  split
  · rw [BitVec.toNat_ofNat]
    exact Nat.mod_eq_of_lt (lt_of_le_of_lt (Nat.div_le_self _ _) ha)
  next h =>
    have hp : 2 ^ 256 ≤ 2 ^ n := Nat.pow_le_pow_right (by decide) (by omega)
    rw [Nat.div_eq_of_lt (lt_of_lt_of_le ha hp)]
    rfl

theorem mantissa_eq (bits : Word) : mantissa bits = bits.toNat % 2 ^ 23 := by
  rw [mantissa, BitVec.toNat_and]
  exact Nat.and_two_pow_sub_one_eq_mod bits.toNat 23

theorem exponent_eq (bits : Word) : exponent bits = bits.toNat / 2 ^ 24 := by
  simp [exponent, Nat.shiftRight_eq_div_pow]

theorem exponent_lt (bits : Word) : exponent bits < 256 := by
  have := bits.isLt
  rw [exponent_eq]
  omega

end Sys2Proof.Laws
end

