-- ==== Sys2Proof/Laws/State.lean ====
section
/-! SUPPORT. One lemma per field per update of the state, true by rfl, so that no later proof unfolds a record update. -/

namespace Sys2Proof.Laws

open Sys2Proof.Machine

/-! ### The two parts of a state -/

/-- A state is its unit and its host's side. -/
theorem state_eq_of_parts {s t : State} (hu : t.toUnitState = s.toUnitState) (hh : t.toHostSide = s.toHostSide) : t = s := by
  cases s
  cases t
  simp_all

@[simp] theorem setU_toHostSide (s : State) (r : UReg) (v : Value) : (s.setU r v).toHostSide = s.toHostSide := rfl
@[simp] theorem setS_toHostSide (s : State) (r : SReg) (v : Scalar) : (s.setS r v).toHostSide = s.toHostSide := rfl
@[simp] theorem setFlags_toHostSide (s : State) (n o : Bool) : (s.setFlags n o).toHostSide = s.toHostSide := rfl
@[simp] theorem raiseException_toHostSide (x : UnitException) (w : Word) (s : State) :
    (raiseException x w s).toHostSide = s.toHostSide := rfl
@[simp] theorem clearError_toHostSide (s : State) : (clearError s).toHostSide = s.toHostSide := rfl
@[simp] theorem resetUnit_toUnitState (s : State) : (resetUnit s).toUnitState = UnitState.reset := rfl
@[simp] theorem observeStatus_toUnitState (s : State) : (observeStatus s).toUnitState = s.toUnitState := rfl
@[simp] theorem deliver_toUnitState (w : Word) (s : State) : (deliver w s).toUnitState = s.toUnitState := rfl

/-! ### reset -/

@[simp] theorem reset_toUnitState : State.reset.toUnitState = UnitState.reset := rfl
@[simp] theorem reset_toHostSide : State.reset.toHostSide = HostSide.reset := rfl
@[simp] theorem reset_regsU : UnitState.reset.regsU = Vector.replicate 16 0#256 := rfl
@[simp] theorem reset_regsS : UnitState.reset.regsS = Vector.replicate 16 0#64 := rfl
@[simp] theorem reset_neg : UnitState.reset.neg = false := rfl
@[simp] theorem reset_ovf : UnitState.reset.ovf = false := rfl
@[simp] theorem reset_busy : UnitState.reset.busy = false := rfl
@[simp] theorem reset_err : UnitState.reset.err = false := rfl
@[simp] theorem reset_errcode : UnitState.reset.errcode = 0#4 := rfl
@[simp] theorem reset_errcmd : UnitState.reset.errcmd = 0#32 := rfl
@[simp] theorem reset_lastcmd : UnitState.reset.lastcmd = 0#32 := rfl
@[simp] theorem reset_pending : UnitState.reset.pending = none := rfl
@[simp] theorem reset_inputs : HostSide.reset.inputs = [] := rfl
@[simp] theorem reset_replies : HostSide.reset.replies = [] := rfl
@[simp] theorem reset_awaiting : HostSide.reset.awaiting = false := rfl
@[simp] theorem reset_wait : HostSide.reset.wait = 0 := rfl
@[simp] theorem reset_accepted : HostSide.reset.accepted = 0 := rfl

/-! ### setU -/

@[simp] theorem setU_regsU (s : State) (r : UReg) (v : Value) : (s.setU r v).regsU = s.regsU.set r.toNat v r.isLt := rfl
@[simp] theorem setU_regsS (s : State) (r : UReg) (v : Value) : (s.setU r v).regsS = s.regsS := rfl
@[simp] theorem setU_neg (s : State) (r : UReg) (v : Value) : (s.setU r v).neg = s.neg := rfl
@[simp] theorem setU_ovf (s : State) (r : UReg) (v : Value) : (s.setU r v).ovf = s.ovf := rfl
@[simp] theorem setU_busy (s : State) (r : UReg) (v : Value) : (s.setU r v).busy = s.busy := rfl
@[simp] theorem setU_err (s : State) (r : UReg) (v : Value) : (s.setU r v).err = s.err := rfl
@[simp] theorem setU_errcode (s : State) (r : UReg) (v : Value) : (s.setU r v).errcode = s.errcode := rfl
@[simp] theorem setU_errcmd (s : State) (r : UReg) (v : Value) : (s.setU r v).errcmd = s.errcmd := rfl
@[simp] theorem setU_lastcmd (s : State) (r : UReg) (v : Value) : (s.setU r v).lastcmd = s.lastcmd := rfl
@[simp] theorem setU_pending (s : State) (r : UReg) (v : Value) : (s.setU r v).pending = s.pending := rfl
@[simp] theorem setU_inputs (s : State) (r : UReg) (v : Value) : (s.setU r v).inputs = s.inputs := rfl
@[simp] theorem setU_replies (s : State) (r : UReg) (v : Value) : (s.setU r v).replies = s.replies := rfl
@[simp] theorem setU_awaiting (s : State) (r : UReg) (v : Value) : (s.setU r v).awaiting = s.awaiting := rfl
@[simp] theorem setU_wait (s : State) (r : UReg) (v : Value) : (s.setU r v).wait = s.wait := rfl
@[simp] theorem setU_accepted (s : State) (r : UReg) (v : Value) : (s.setU r v).accepted = s.accepted := rfl

/-! ### setS -/

@[simp] theorem setS_regsU (s : State) (r : SReg) (v : Scalar) : (s.setS r v).regsU = s.regsU := rfl
@[simp] theorem setS_regsS (s : State) (r : SReg) (v : Scalar) : (s.setS r v).regsS = s.regsS.set r.toNat v r.isLt := rfl
@[simp] theorem setS_neg (s : State) (r : SReg) (v : Scalar) : (s.setS r v).neg = s.neg := rfl
@[simp] theorem setS_ovf (s : State) (r : SReg) (v : Scalar) : (s.setS r v).ovf = s.ovf := rfl
@[simp] theorem setS_busy (s : State) (r : SReg) (v : Scalar) : (s.setS r v).busy = s.busy := rfl
@[simp] theorem setS_err (s : State) (r : SReg) (v : Scalar) : (s.setS r v).err = s.err := rfl
@[simp] theorem setS_errcode (s : State) (r : SReg) (v : Scalar) : (s.setS r v).errcode = s.errcode := rfl
@[simp] theorem setS_errcmd (s : State) (r : SReg) (v : Scalar) : (s.setS r v).errcmd = s.errcmd := rfl
@[simp] theorem setS_lastcmd (s : State) (r : SReg) (v : Scalar) : (s.setS r v).lastcmd = s.lastcmd := rfl
@[simp] theorem setS_pending (s : State) (r : SReg) (v : Scalar) : (s.setS r v).pending = s.pending := rfl
@[simp] theorem setS_inputs (s : State) (r : SReg) (v : Scalar) : (s.setS r v).inputs = s.inputs := rfl
@[simp] theorem setS_replies (s : State) (r : SReg) (v : Scalar) : (s.setS r v).replies = s.replies := rfl
@[simp] theorem setS_awaiting (s : State) (r : SReg) (v : Scalar) : (s.setS r v).awaiting = s.awaiting := rfl
@[simp] theorem setS_wait (s : State) (r : SReg) (v : Scalar) : (s.setS r v).wait = s.wait := rfl
@[simp] theorem setS_accepted (s : State) (r : SReg) (v : Scalar) : (s.setS r v).accepted = s.accepted := rfl

/-! ### setFlags -/

@[simp] theorem setFlags_regsU (s : State) (n o : Bool) : (s.setFlags n o).regsU = s.regsU := rfl
@[simp] theorem setFlags_regsS (s : State) (n o : Bool) : (s.setFlags n o).regsS = s.regsS := rfl
@[simp] theorem setFlags_neg (s : State) (n o : Bool) : (s.setFlags n o).neg = n := rfl
@[simp] theorem setFlags_ovf (s : State) (n o : Bool) : (s.setFlags n o).ovf = o := rfl
@[simp] theorem setFlags_busy (s : State) (n o : Bool) : (s.setFlags n o).busy = s.busy := rfl
@[simp] theorem setFlags_err (s : State) (n o : Bool) : (s.setFlags n o).err = s.err := rfl
@[simp] theorem setFlags_errcode (s : State) (n o : Bool) : (s.setFlags n o).errcode = s.errcode := rfl
@[simp] theorem setFlags_errcmd (s : State) (n o : Bool) : (s.setFlags n o).errcmd = s.errcmd := rfl
@[simp] theorem setFlags_lastcmd (s : State) (n o : Bool) : (s.setFlags n o).lastcmd = s.lastcmd := rfl
@[simp] theorem setFlags_pending (s : State) (n o : Bool) : (s.setFlags n o).pending = s.pending := rfl
@[simp] theorem setFlags_inputs (s : State) (n o : Bool) : (s.setFlags n o).inputs = s.inputs := rfl
@[simp] theorem setFlags_replies (s : State) (n o : Bool) : (s.setFlags n o).replies = s.replies := rfl
@[simp] theorem setFlags_awaiting (s : State) (n o : Bool) : (s.setFlags n o).awaiting = s.awaiting := rfl
@[simp] theorem setFlags_wait (s : State) (n o : Bool) : (s.setFlags n o).wait = s.wait := rfl
@[simp] theorem setFlags_accepted (s : State) (n o : Bool) : (s.setFlags n o).accepted = s.accepted := rfl

/-! ### raiseException -/

@[simp] theorem raiseException_regsU (x : UnitException) (w : Word) (s : State) : (raiseException x w s).regsU = s.regsU := rfl
@[simp] theorem raiseException_regsS (x : UnitException) (w : Word) (s : State) : (raiseException x w s).regsS = s.regsS := rfl
@[simp] theorem raiseException_neg (x : UnitException) (w : Word) (s : State) : (raiseException x w s).neg = s.neg := rfl
@[simp] theorem raiseException_ovf (x : UnitException) (w : Word) (s : State) : (raiseException x w s).ovf = s.ovf := rfl
@[simp] theorem raiseException_busy (x : UnitException) (w : Word) (s : State) : (raiseException x w s).busy = s.busy := rfl
@[simp] theorem raiseException_err (x : UnitException) (w : Word) (s : State) : (raiseException x w s).err = true := rfl
@[simp] theorem raiseException_errcode (x : UnitException) (w : Word) (s : State) : (raiseException x w s).errcode = errorCode x := rfl
@[simp] theorem raiseException_errcmd (x : UnitException) (w : Word) (s : State) : (raiseException x w s).errcmd = w := rfl
@[simp] theorem raiseException_lastcmd (x : UnitException) (w : Word) (s : State) : (raiseException x w s).lastcmd = s.lastcmd := rfl
@[simp] theorem raiseException_pending (x : UnitException) (w : Word) (s : State) : (raiseException x w s).pending = s.pending := rfl
@[simp] theorem raiseException_inputs (x : UnitException) (w : Word) (s : State) : (raiseException x w s).inputs = s.inputs := rfl
@[simp] theorem raiseException_replies (x : UnitException) (w : Word) (s : State) : (raiseException x w s).replies = s.replies := rfl
@[simp] theorem raiseException_awaiting (x : UnitException) (w : Word) (s : State) : (raiseException x w s).awaiting = s.awaiting := rfl
@[simp] theorem raiseException_wait (x : UnitException) (w : Word) (s : State) : (raiseException x w s).wait = s.wait := rfl
@[simp] theorem raiseException_accepted (x : UnitException) (w : Word) (s : State) : (raiseException x w s).accepted = s.accepted := rfl

/-! ### clearError -/

@[simp] theorem clearError_regsU (s : State) : (clearError s).regsU = s.regsU := rfl
@[simp] theorem clearError_regsS (s : State) : (clearError s).regsS = s.regsS := rfl
@[simp] theorem clearError_neg (s : State) : (clearError s).neg = s.neg := rfl
@[simp] theorem clearError_ovf (s : State) : (clearError s).ovf = s.ovf := rfl
@[simp] theorem clearError_busy (s : State) : (clearError s).busy = s.busy := rfl
@[simp] theorem clearError_err (s : State) : (clearError s).err = false := rfl
@[simp] theorem clearError_errcode (s : State) : (clearError s).errcode = 0#4 := rfl
@[simp] theorem clearError_errcmd (s : State) : (clearError s).errcmd = 0#32 := rfl
@[simp] theorem clearError_lastcmd (s : State) : (clearError s).lastcmd = s.lastcmd := rfl
@[simp] theorem clearError_pending (s : State) : (clearError s).pending = s.pending := rfl
@[simp] theorem clearError_inputs (s : State) : (clearError s).inputs = s.inputs := rfl
@[simp] theorem clearError_replies (s : State) : (clearError s).replies = s.replies := rfl
@[simp] theorem clearError_awaiting (s : State) : (clearError s).awaiting = s.awaiting := rfl
@[simp] theorem clearError_wait (s : State) : (clearError s).wait = s.wait := rfl
@[simp] theorem clearError_accepted (s : State) : (clearError s).accepted = s.accepted := rfl

/-! ### resetUnit -/

@[simp] theorem resetUnit_regsU (s : State) : (resetUnit s).regsU = UnitState.reset.regsU := rfl
@[simp] theorem resetUnit_regsS (s : State) : (resetUnit s).regsS = UnitState.reset.regsS := rfl
@[simp] theorem resetUnit_neg (s : State) : (resetUnit s).neg = UnitState.reset.neg := rfl
@[simp] theorem resetUnit_ovf (s : State) : (resetUnit s).ovf = UnitState.reset.ovf := rfl
@[simp] theorem resetUnit_busy (s : State) : (resetUnit s).busy = UnitState.reset.busy := rfl
@[simp] theorem resetUnit_err (s : State) : (resetUnit s).err = UnitState.reset.err := rfl
@[simp] theorem resetUnit_errcode (s : State) : (resetUnit s).errcode = UnitState.reset.errcode := rfl
@[simp] theorem resetUnit_errcmd (s : State) : (resetUnit s).errcmd = UnitState.reset.errcmd := rfl
@[simp] theorem resetUnit_lastcmd (s : State) : (resetUnit s).lastcmd = UnitState.reset.lastcmd := rfl
@[simp] theorem resetUnit_pending (s : State) : (resetUnit s).pending = UnitState.reset.pending := rfl
@[simp] theorem resetUnit_inputs (s : State) : (resetUnit s).inputs = s.inputs := rfl
@[simp] theorem resetUnit_replies (s : State) : (resetUnit s).replies = s.replies := rfl
@[simp] theorem resetUnit_awaiting (s : State) : (resetUnit s).awaiting = false := rfl
@[simp] theorem resetUnit_wait (s : State) : (resetUnit s).wait = 0 := rfl
@[simp] theorem resetUnit_accepted (s : State) : (resetUnit s).accepted = s.accepted := rfl

/-! ### accept -/

@[simp] theorem accept_regsU (w : Word) (n : Nat) (s : State) : (accept w n s).regsU = s.regsU := rfl
@[simp] theorem accept_regsS (w : Word) (n : Nat) (s : State) : (accept w n s).regsS = s.regsS := rfl
@[simp] theorem accept_neg (w : Word) (n : Nat) (s : State) : (accept w n s).neg = s.neg := rfl
@[simp] theorem accept_ovf (w : Word) (n : Nat) (s : State) : (accept w n s).ovf = s.ovf := rfl
@[simp] theorem accept_busy (w : Word) (n : Nat) (s : State) : (accept w n s).busy = true := rfl
@[simp] theorem accept_err (w : Word) (n : Nat) (s : State) : (accept w n s).err = s.err := rfl
@[simp] theorem accept_errcode (w : Word) (n : Nat) (s : State) : (accept w n s).errcode = s.errcode := rfl
@[simp] theorem accept_errcmd (w : Word) (n : Nat) (s : State) : (accept w n s).errcmd = s.errcmd := rfl
@[simp] theorem accept_lastcmd (w : Word) (n : Nat) (s : State) : (accept w n s).lastcmd = w := rfl
@[simp] theorem accept_pending (w : Word) (n : Nat) (s : State) : (accept w n s).pending = some w := rfl
@[simp] theorem accept_inputs (w : Word) (n : Nat) (s : State) : (accept w n s).inputs = s.inputs := rfl
@[simp] theorem accept_replies (w : Word) (n : Nat) (s : State) : (accept w n s).replies = s.replies := rfl
@[simp] theorem accept_awaiting (w : Word) (n : Nat) (s : State) : (accept w n s).awaiting = true := rfl
@[simp] theorem accept_wait (w : Word) (n : Nat) (s : State) : (accept w n s).wait = n := rfl
@[simp] theorem accept_accepted (w : Word) (n : Nat) (s : State) : (accept w n s).accepted = s.accepted := rfl

/-! ### endCommand -/

@[simp] theorem endCommand_regsU (s : State) : (endCommand s).regsU = s.regsU := rfl
@[simp] theorem endCommand_regsS (s : State) : (endCommand s).regsS = s.regsS := rfl
@[simp] theorem endCommand_neg (s : State) : (endCommand s).neg = s.neg := rfl
@[simp] theorem endCommand_ovf (s : State) : (endCommand s).ovf = s.ovf := rfl
@[simp] theorem endCommand_busy (s : State) : (endCommand s).busy = false := rfl
@[simp] theorem endCommand_err (s : State) : (endCommand s).err = s.err := rfl
@[simp] theorem endCommand_errcode (s : State) : (endCommand s).errcode = s.errcode := rfl
@[simp] theorem endCommand_errcmd (s : State) : (endCommand s).errcmd = s.errcmd := rfl
@[simp] theorem endCommand_lastcmd (s : State) : (endCommand s).lastcmd = s.lastcmd := rfl
@[simp] theorem endCommand_pending (s : State) : (endCommand s).pending = none := rfl
@[simp] theorem endCommand_inputs (s : State) : (endCommand s).inputs = s.inputs := rfl
@[simp] theorem endCommand_replies (s : State) : (endCommand s).replies = s.replies := rfl
@[simp] theorem endCommand_awaiting (s : State) : (endCommand s).awaiting = s.awaiting := rfl
@[simp] theorem endCommand_wait (s : State) : (endCommand s).wait = 0 := rfl
@[simp] theorem endCommand_accepted (s : State) : (endCommand s).accepted = s.accepted := rfl

/-! ### observeStatus -/

@[simp] theorem observeStatus_regsU (s : State) : (observeStatus s).regsU = s.regsU := rfl
@[simp] theorem observeStatus_regsS (s : State) : (observeStatus s).regsS = s.regsS := rfl
@[simp] theorem observeStatus_neg (s : State) : (observeStatus s).neg = s.neg := rfl
@[simp] theorem observeStatus_ovf (s : State) : (observeStatus s).ovf = s.ovf := rfl
@[simp] theorem observeStatus_busy (s : State) : (observeStatus s).busy = s.busy := rfl
@[simp] theorem observeStatus_err (s : State) : (observeStatus s).err = s.err := rfl
@[simp] theorem observeStatus_errcode (s : State) : (observeStatus s).errcode = s.errcode := rfl
@[simp] theorem observeStatus_errcmd (s : State) : (observeStatus s).errcmd = s.errcmd := rfl
@[simp] theorem observeStatus_lastcmd (s : State) : (observeStatus s).lastcmd = s.lastcmd := rfl
@[simp] theorem observeStatus_pending (s : State) : (observeStatus s).pending = s.pending := rfl
@[simp] theorem observeStatus_inputs (s : State) : (observeStatus s).inputs = s.inputs := rfl
@[simp] theorem observeStatus_replies (s : State) : (observeStatus s).replies = s.replies := rfl
@[simp] theorem observeStatus_awaiting (s : State) : (observeStatus s).awaiting = (s.awaiting && s.busy) := rfl
@[simp] theorem observeStatus_wait (s : State) : (observeStatus s).wait = s.wait - 1 := rfl
@[simp] theorem observeStatus_accepted (s : State) : (observeStatus s).accepted = s.accepted := rfl

/-! ### deliver -/

@[simp] theorem deliver_regsU (w : Word) (s : State) : (deliver w s).regsU = s.regsU := rfl
@[simp] theorem deliver_regsS (w : Word) (s : State) : (deliver w s).regsS = s.regsS := rfl
@[simp] theorem deliver_neg (w : Word) (s : State) : (deliver w s).neg = s.neg := rfl
@[simp] theorem deliver_ovf (w : Word) (s : State) : (deliver w s).ovf = s.ovf := rfl
@[simp] theorem deliver_busy (w : Word) (s : State) : (deliver w s).busy = s.busy := rfl
@[simp] theorem deliver_err (w : Word) (s : State) : (deliver w s).err = s.err := rfl
@[simp] theorem deliver_errcode (w : Word) (s : State) : (deliver w s).errcode = s.errcode := rfl
@[simp] theorem deliver_errcmd (w : Word) (s : State) : (deliver w s).errcmd = s.errcmd := rfl
@[simp] theorem deliver_lastcmd (w : Word) (s : State) : (deliver w s).lastcmd = s.lastcmd := rfl
@[simp] theorem deliver_pending (w : Word) (s : State) : (deliver w s).pending = s.pending := rfl
@[simp] theorem deliver_inputs (w : Word) (s : State) : (deliver w s).inputs = s.inputs := rfl
@[simp] theorem deliver_replies (w : Word) (s : State) : (deliver w s).replies = s.replies ++ [w] := rfl
@[simp] theorem deliver_awaiting (w : Word) (s : State) : (deliver w s).awaiting = s.awaiting := rfl
@[simp] theorem deliver_wait (w : Word) (s : State) : (deliver w s).wait = s.wait := rfl
@[simp] theorem deliver_accepted (w : Word) (s : State) : (deliver w s).accepted = s.accepted := rfl

end Sys2Proof.Laws
end

