-- ==== Sys2Proof/Laws/Ops.lean ====
section
/-! SUPPORT. For each shared operation one lemma that says once what it can do. -/

namespace Sys2Proof.Laws

open Sys2Proof.Machine

/-! ### Register files -/

theorem getU_setU (s : State) (r d : UReg) (v : Value) : (s.setU d v).getU r = if r = d then v else s.getU r := by
  unfold State.getU State.setU
  simp only [Vector.getElem_set, ← BitVec.toNat_inj, eq_comm (a := d.toNat)]

theorem getS_setS (s : State) (r d : SReg) (v : Scalar) : (s.setS d v).getS r = if r = d then v else s.getS r := by
  unfold State.getS State.setS
  simp only [Vector.getElem_set, ← BitVec.toNat_inj, eq_comm (a := d.toNat)]

@[simp] theorem getU_setU_same (s : State) (d : UReg) (v : Value) : (s.setU d v).getU d = v := by simp [getU_setU]

@[simp] theorem getS_setS_same (s : State) (d : SReg) (v : Scalar) : (s.setS d v).getS d = v := by simp [getS_setS]

@[simp] theorem getS_setU (s : State) (r : SReg) (d : UReg) (v : Value) : (s.setU d v).getS r = s.getS r := rfl

@[simp] theorem getU_setS (s : State) (r : UReg) (d : SReg) (v : Scalar) : (s.setS d v).getU r = s.getU r := rfl

@[simp] theorem getU_setFlags (s : State) (r : UReg) (n o : Bool) : (s.setFlags n o).getU r = s.getU r := rfl

@[simp] theorem getS_setFlags (s : State) (r : SReg) (n o : Bool) : (s.setFlags n o).getS r = s.getS r := rfl

@[simp] theorem getU_raiseException (x : UnitException) (w : Word) (s : State) (r : UReg) :
    (raiseException x w s).getU r = s.getU r := rfl

@[simp] theorem getS_raiseException (x : UnitException) (w : Word) (s : State) (r : SReg) :
    (raiseException x w s).getS r = s.getS r := rfl

/-! ### Execution -/

/-- Everything a command can do: write one value register, write one scalar register, write a value register and both flags
(CDEC only), or take DivideByZero (DIV with a zero divisor only). -/
theorem exec_effect (i : Instr) (s : State) :
    (∃ d v, exec i s = .next (s.setU d v)) ∨ (∃ d v, exec i s = .next (s.setS d v)) ∨
      (∃ d a v n o, i = .cdec d a ∧ exec i s = .next ((s.setU d v).setFlags n o)) ∨
      (∃ d a b, i = .div d a b ∧ s.getU b = 0#256 ∧
        exec i s = .next (raiseException .divideByZero (encode (.div d a b)) s)) := by
  cases i with
  | div d a b =>
    by_cases h : s.getU b = 0#256
    · exact .inr (.inr (.inr ⟨d, a, b, rfl, h, by simp [exec, execDiv, divide, h]⟩))
    · exact .inl ⟨d, _, by simp only [exec, execDiv, divide, if_neg h]; rfl⟩
  | cdec d a => exact .inr (.inr (.inl ⟨d, a, _, _, _, rfl, rfl⟩))
  | cmp | eqs | bitlen | todbl | getlo | sli | slih | cenc | rdfl => exact .inr (.inl ⟨_, _, rfl⟩)
  | _ => exact .inl ⟨_, _, rfl⟩

/-! ### The cycle -/

/-- With a command pending whose time has come, a step is its completion. -/
theorem step_completes (s : State) (w : Word) (hp : s.pending = some w) (hc : completesNow s = true) :
    step s = complete w s := by simp [step, cycle, hp, hc]

/-- Otherwise a step is the host's next event. -/
theorem step_hostTurn (s : State) (h : s.pending = none ∨ completesNow s = false) : step s = hostTurn s := by
  rcases h with h | h
  · simp [step, cycle, h]
  · cases hp : s.pending <;> simp [step, cycle, hp, h]

/-- Everything an access can come to: it is refused, or it is carried out on a register of the window. -/
theorem hostAccess_effect (a : Access) (s : State) :
    (∃ r, hostAccess a s = .refused r) ∨
      (∃ g, windowReg a.off = .ok g ∧ ((s.awaiting || s.busy) = false ∨ allowedWhileBusy g a.kind = true) ∧
        hostAccess a s = .next (performAccess g a.kind s)) := by
  unfold hostAccess
  split
  · exact .inl ⟨_, rfl⟩
  split
  · exact .inl ⟨_, rfl⟩
  split
  · exact .inl ⟨_, rfl⟩
  next g hg =>
    split
    · exact .inl ⟨_, rfl⟩
    next hb =>
      refine .inr ⟨g, hg, ?_, rfl⟩
      cases h1 : (s.awaiting || s.busy) <;> cases h2 : allowedWhileBusy g a.kind <;> simp_all

end Sys2Proof.Laws
end

