-- ==== Sys2Proof/Laws/PerInstr.lean ====
section
/-! SUPPORT. The statement family made per instruction: the word of a command has the opcode of its row and zeros in the SBZ
bits of its format (spec/30_encoding.md R55, R57). -/

namespace Sys2Proof.Laws.EncodedRow

/-- The word of a command carries its row's opcode, and its SBZ bits are zero. -/
def Statement (i : Instr) : Prop := fieldOp (encode i) = i.mnemonic.op ∧ sbzZero i.mnemonic.format (encode i) = true

theorem shl (d a : UReg) (b : SReg) : Statement (.shl d a b) := ⟨fieldOp_encodeRRR .., sbzZero_encodeRRR ..⟩

theorem shr (d a : UReg) (b : SReg) : Statement (.shr d a b) := ⟨fieldOp_encodeRRR .., sbzZero_encodeRRR ..⟩

theorem shli (d a : UReg) (imm : Imm16) : Statement (.shli d a imm) := ⟨fieldOp_encodeRI .., rfl⟩

theorem shri (d a : UReg) (imm : Imm16) : Statement (.shri d a imm) := ⟨fieldOp_encodeRI .., rfl⟩

theorem mul (d a b : UReg) : Statement (.mul d a b) := ⟨fieldOp_encodeRRR .., sbzZero_encodeRRR ..⟩

theorem mulw (d a : UReg) (b : SReg) : Statement (.mulw d a b) := ⟨fieldOp_encodeRRR .., sbzZero_encodeRRR ..⟩

theorem mulwi (d a : UReg) (imm : Imm16) : Statement (.mulwi d a imm) := ⟨fieldOp_encodeRI .., rfl⟩

theorem div (d a b : UReg) : Statement (.div d a b) := ⟨fieldOp_encodeRRR .., sbzZero_encodeRRR ..⟩

theorem cmp (d : SReg) (a b : UReg) : Statement (.cmp d a b) := ⟨fieldOp_encodeRRR .., sbzZero_encodeRRR ..⟩

theorem eqs (d : SReg) (a : UReg) (b : SReg) : Statement (.eqs d a b) := ⟨fieldOp_encodeRRR .., sbzZero_encodeRRR ..⟩

theorem bitlen (d : SReg) (a : UReg) : Statement (.bitlen d a) := ⟨fieldOp_encodeRR .., sbzZero_encodeRR ..⟩

theorem todbl (d : SReg) (a : UReg) : Statement (.todbl d a) := ⟨fieldOp_encodeRR .., sbzZero_encodeRR ..⟩

theorem movu (d a : UReg) : Statement (.movu d a) := ⟨fieldOp_encodeRR .., sbzZero_encodeRR ..⟩

theorem setu (d : UReg) (a : SReg) : Statement (.setu d a) := ⟨fieldOp_encodeRR .., sbzZero_encodeRR ..⟩

theorem getlo (d : SReg) (a : UReg) : Statement (.getlo d a) := ⟨fieldOp_encodeRR .., sbzZero_encodeRR ..⟩

theorem sli (d : SReg) (imm : Imm16) : Statement (.sli d imm) := ⟨fieldOp_encodeDI .., sbzZero_encodeDI ..⟩

theorem slih (d : SReg) (imm : Imm16) : Statement (.slih d imm) := ⟨fieldOp_encodeDI .., sbzZero_encodeDI ..⟩

theorem add (d a b : UReg) : Statement (.add d a b) := ⟨fieldOp_encodeRRR .., sbzZero_encodeRRR ..⟩

theorem sub (d a b : UReg) : Statement (.sub d a b) := ⟨fieldOp_encodeRRR .., sbzZero_encodeRRR ..⟩

theorem not (d a : UReg) : Statement (.not d a) := ⟨fieldOp_encodeRR .., sbzZero_encodeRR ..⟩

theorem cdec (d : UReg) (a : SReg) : Statement (.cdec d a) := ⟨fieldOp_encodeRR .., sbzZero_encodeRR ..⟩

theorem cenc (d : SReg) (a : UReg) (b : SReg) : Statement (.cenc d a b) := ⟨fieldOp_encodeRRR .., sbzZero_encodeRRR ..⟩

theorem rdfl (d : SReg) : Statement (.rdfl d) := ⟨fieldOp_encodeD .., sbzZero_encodeD ..⟩

end Sys2Proof.Laws.EncodedRow
end

