-- ==== Sys2Proof/Laws/Window.lean ====
section
/-! SUPPORT. What the window map can answer: the offset of each register, and the offsets that are refused. -/

namespace Sys2Proof.Laws

open Sys2Proof.Machine

/-- A host address in the window is the offset it lies at (spec/20_memory.md R38). -/
theorem offsetOf_unitBase_add (off : Offset) : offsetOf (Config.unitBase + off.toNat) = some off := by
  have := off.isLt
  unfold offsetOf
  rw [if_pos ⟨by omega, by simp only [Config.windowSize]; omega⟩]
  simp

theorem windowReg_limbU (i : UReg) (j : Nat) (h : j < 8) :
    windowReg (BitVec.ofNat 10 (0x20 * i.toNat + 4 * j)) = .ok (.limbU i (BitVec.ofNat 3 j)) := by
  have hi : i.toNat < 16 := i.isLt
  have ho : (BitVec.ofNat 10 (0x20 * i.toNat + 4 * j)).toNat = 0x20 * i.toNat + 4 * j := by
    simp only [BitVec.toNat_ofNat]; omega
  have h1 : (0x20 * i.toNat + 4 * j) / 0x20 = i.toNat := by omega
  have h2 : (0x20 * i.toNat + 4 * j) % 0x20 / 4 = j := by omega
  simp only [windowReg, ho]
  rw [if_neg (by omega), if_pos (by omega), h1, h2]
  simp

theorem windowReg_lowS (i : SReg) : windowReg (BitVec.ofNat 10 (0x200 + 8 * i.toNat)) = .ok (.lowS i) := by
  have hi : i.toNat < 16 := i.isLt
  have ho : (BitVec.ofNat 10 (0x200 + 8 * i.toNat)).toNat = 0x200 + 8 * i.toNat := by
    simp only [BitVec.toNat_ofNat]; omega
  have h1 : (0x200 + 8 * i.toNat - 0x200) / 8 = i.toNat := by omega
  simp only [windowReg, ho]
  rw [if_neg (by omega), if_neg (by omega), if_pos (by omega), if_pos (by omega), h1]
  simp

theorem windowReg_highS (i : SReg) : windowReg (BitVec.ofNat 10 (0x204 + 8 * i.toNat)) = .ok (.highS i) := by
  have hi : i.toNat < 16 := i.isLt
  have ho : (BitVec.ofNat 10 (0x204 + 8 * i.toNat)).toNat = 0x204 + 8 * i.toNat := by
    simp only [BitVec.toNat_ofNat]; omega
  have h1 : (0x204 + 8 * i.toNat - 0x200) / 8 = i.toNat := by omega
  simp only [windowReg, ho]
  rw [if_neg (by omega), if_neg (by omega), if_pos (by omega), if_neg (by omega), h1]
  simp

/-- The map refuses exactly the misaligned and the reserved offsets (R43, R44). -/
theorem windowReg_error_iff (off : Offset) :
    (∃ e, windowReg off = .error e) ↔ off.toNat % 4 ≠ 0 ∨ 0x29C ≤ off.toNat := by
  simp only [windowReg]
  have := off.isLt
  split
  · simp; omega
  split
  · simp; omega
  split
  · split <;> simp <;> omega
  iterate 7
    split
    · simp; omega
  simp
  omega

theorem windowReg_status_iff (off : Offset) : windowReg off = .ok .status ↔ off = 0x284#10 := by
  rw [← BitVec.toNat_inj]
  simp only [windowReg]
  repeat' split
  all_goals simp
  all_goals omega

theorem windowReg_cmd_iff (off : Offset) : windowReg off = .ok .cmd ↔ off = 0x280#10 := by
  rw [← BitVec.toNat_inj]
  simp only [windowReg]
  repeat' split
  all_goals simp
  all_goals omega

end Sys2Proof.Laws
end

