-- ==== Sys2Proof/Tests/Slice0.lean ====
section
/-! SUPPORT. The model's own tests: decoding of words written out in the spec, the checks of WellFormed, one step of each
command on the spec's vectors (spec/95_test_vectors.md), host accesses, and for every statement with hypotheses a named
theorem that meets them. -/

namespace Sys2Proof.Tests

open Sys2Proof Sys2Proof.Machine

/-! ### Helpers -/

/-- U[r] after the unit has completed the word. -/
def valueAfter (w : Nat) (s : State) (r : UReg) : Option Value :=
  match step (s.withFetchWord 32 w) with
  | .next t => some (t.getU r)
  | _ => none

/-- S[r] after the unit has completed the word. -/
def scalarAfter (w : Nat) (s : State) (r : SReg) : Option Scalar :=
  match step (s.withFetchWord 32 w) with
  | .next t => some (t.getS r)
  | _ => none

/-- NEG and OVF after the unit has completed the word. -/
def flagsAfter (w : Nat) (s : State) : Option (Bool × Bool) :=
  match step (s.withFetchWord 32 w) with
  | .next t => some (t.neg, t.ovf)
  | _ => none

/-- STATUS and ERRCMD after the unit has completed the word. -/
def errorAfter (w : Nat) (s : State) : Option (Word × Word) :=
  match step (s.withFetchWord 32 w) with
  | .next t => some (statusWord t, t.errcmd)
  | _ => none

/-- Why a word is illegal. -/
def illegalAs (w : Word) : Option Illegal :=
  match decode w with
  | .ok _ => none
  | .error e => some e

/-- The reset state with a host program. -/
def hosting (es : List HostEvent) : State := { State.reset with inputs := es }

/-- What the host has read after one step. -/
def repliesAfter (s : State) : Option (List Word) :=
  match step s with
  | .next t => some t.replies
  | _ => none

/-- Why a step is refused. -/
def refusalOf (s : State) : Option Refusal :=
  match step s with
  | .refused r => some r
  | _ => none

/-- A state with one error recorded: a DIV by zero (V-RS3). -/
def errorState (es : List HostEvent) : State :=
  { hosting es with err := true, errcode := 1, errcmd := 0x00021330, lastcmd := 0x00021330 }

/-- A state with a command pending that `n` STATUS reads may still find busy. -/
def pendingState (w : Word) (n : Nat) (es : List HostEvent) : State := accept w n (hosting es)

/-! ### Decoding and encoding: the words of the spec's own examples (files 41 to 47) -/

theorem test_decode_shl : (decode 0x00032110#32).toOption = some (.shl 1 2 3) ∧ encode (.shl 1 2 3) = 0x00032110#32 := by decide

theorem test_decode_shr : (decode 0x00032111#32).toOption = some (.shr 1 2 3) ∧ encode (.shr 1 2 3) = 0x00032111#32 := by decide

theorem test_decode_shli : (decode 0x00FF2112#32).toOption = some (.shli 1 2 255) ∧ encode (.shli 1 2 255) = 0x00FF2112#32 := by decide

theorem test_decode_shri : (decode 0x00FC2113#32).toOption = some (.shri 1 2 252) ∧ encode (.shri 1 2 252) = 0x00FC2113#32 := by decide

theorem test_decode_mul : (decode 0x00021320#32).toOption = some (.mul 3 1 2) ∧ encode (.mul 3 1 2) = 0x00021320#32 := by decide

theorem test_decode_mulw : (decode 0x00021321#32).toOption = some (.mulw 3 1 2) ∧ encode (.mulw 3 1 2) = 0x00021321#32 := by decide

theorem test_decode_mulwi : (decode 0x10001122#32).toOption = some (.mulwi 1 1 0x1000) ∧ encode (.mulwi 1 1 0x1000) = 0x10001122#32 := by decide

theorem test_decode_div : (decode 0x00021330#32).toOption = some (.div 3 1 2) ∧ encode (.div 3 1 2) = 0x00021330#32 := by decide

theorem test_decode_cmp : (decode 0x00021140#32).toOption = some (.cmp 1 1 2) ∧ encode (.cmp 1 1 2) = 0x00021140#32 := by decide

theorem test_decode_eqs : (decode 0x00021341#32).toOption = some (.eqs 3 1 2) ∧ encode (.eqs 3 1 2) = 0x00021341#32 := by decide

theorem test_decode_bitlen : (decode 0x00001142#32).toOption = some (.bitlen 1 1) ∧ encode (.bitlen 1 1) = 0x00001142#32 := by decide

theorem test_decode_todbl : (decode 0x00001150#32).toOption = some (.todbl 1 1) ∧ encode (.todbl 1 1) = 0x00001150#32 := by decide

theorem test_decode_movu : (decode 0x00002151#32).toOption = some (.movu 1 2) ∧ encode (.movu 1 2) = 0x00002151#32 := by decide

theorem test_decode_setu : (decode 0x00001252#32).toOption = some (.setu 2 1) ∧ encode (.setu 2 1) = 0x00001252#32 := by decide

theorem test_decode_getlo : (decode 0x00001353#32).toOption = some (.getlo 3 1) ∧ encode (.getlo 3 1) = 0x00001353#32 := by decide

theorem test_decode_sli : (decode 0x1D000154#32).toOption = some (.sli 1 0x1d00) ∧ encode (.sli 1 0x1d00) = 0x1D000154#32 := by decide

theorem test_decode_slih : (decode 0xFFFF0155#32).toOption = some (.slih 1 0xffff) ∧ encode (.slih 1 0xffff) = 0xFFFF0155#32 := by decide

theorem test_decode_add : (decode 0x00021360#32).toOption = some (.add 3 1 2) ∧ encode (.add 3 1 2) = 0x00021360#32 := by decide

theorem test_decode_sub : (decode 0x00021361#32).toOption = some (.sub 3 1 2) ∧ encode (.sub 3 1 2) = 0x00021361#32 := by decide

theorem test_decode_not : (decode 0x00001262#32).toOption = some (.not 2 1) ∧ encode (.not 2 1) = 0x00001262#32 := by decide

theorem test_decode_cdec : (decode 0x00001170#32).toOption = some (.cdec 1 1) ∧ encode (.cdec 1 1) = 0x00001170#32 := by decide

theorem test_decode_cenc : (decode 0x00021371#32).toOption = some (.cenc 3 1 2) ∧ encode (.cenc 3 1 2) = 0x00021371#32 := by decide

theorem test_decode_rdfl : (decode 0x00000272#32).toOption = some (.rdfl 2) ∧ encode (.rdfl 2) = 0x00000272#32 := by decide

/-! ### Illegal words (spec/95_test_vectors.md V-ENC1 to V-ENC14) -/

theorem test_illegal_zero : illegalAs 0x00000000#32 = some (.reservedOpcode 0x00) := by decide

theorem test_illegal_op_14 : illegalAs 0x00000014#32 = some (.reservedOpcode 0x14) := by decide

theorem test_illegal_op_ff : illegalAs 0x000000FF#32 = some (.reservedOpcode 0xFF) := by decide

theorem test_illegal_op_73 : illegalAs 0x00000073#32 = some (.reservedOpcode 0x73) := by decide

theorem test_illegal_movu_bit_16 : illegalAs 0x00012151#32 = some (.nonzeroSbz 0x51) := by decide

theorem test_illegal_div_bit_20 : illegalAs 0x00100030#32 = some (.nonzeroSbz 0x30) := by decide

theorem test_illegal_sli_bit_12 : illegalAs 0x00001054#32 = some (.nonzeroSbz 0x54) := by decide

theorem test_illegal_rdfl_bit_12 : illegalAs 0x00001072#32 = some (.nonzeroSbz 0x72) := by decide

theorem test_illegal_slih_bits_15_12 : illegalAs 0xFFFFFF55#32 = some (.nonzeroSbz 0x55) := by decide

theorem test_illegal_add_bit_31 : illegalAs 0x80000060#32 = some (.nonzeroSbz 0x60) := by decide

/-! ### WellFormed: one ill-formed line for each check -/

theorem test_wellformed_line : (AsmLine.mk .shl [.u 1, .u 2, .s 3]).check.toOption = some () := by decide

theorem test_wellformed_refuses_operand_count : ¬ (AsmLine.mk .shl [.u 1, .u 2]).WellFormed := by decide

theorem test_wellformed_refuses_operand_letter : ¬ (AsmLine.mk .shl [.u 1, .u 2, .u 3]).WellFormed := by decide

theorem test_wellformed_refuses_register_range : ¬ (AsmLine.mk .shl [.u 16, .u 2, .s 3]).WellFormed := by decide

theorem test_wellformed_refuses_scalar_range : ¬ (AsmLine.mk .shl [.u 1, .u 2, .s 16]).WellFormed := by decide

theorem test_wellformed_refuses_immediate_range : ¬ (AsmLine.mk .sli [.s 1, .imm 65536]).WellFormed := by decide

/-! ### Assembler text (spec/30_encoding.md R62) -/

theorem test_text_of_shl : lineText (Instr.shl 1 2 3).asm = ['S','H','L',' ','U','1',',',' ','U','2',',',' ','S','3'] := by
  decide

theorem test_read_sli_hex_with_comment :
    (readLine ['S','L','I',' ','S','4',',',' ','0','x','1','d','0','0',' ',';',' ','x']).toOption =
      some (Instr.sli 4 0x1d00).asm := by decide

theorem test_read_li32 :
    (readCommands ['L','I','3','2',' ','S','1',',',' ','0','x','1','d','0','0','f','f','f','f']).toOption =
      some [.sli 1 0x1d00, .slih 1 0xffff] := by decide

theorem test_read_refuses_unknown_mnemonic : (readLine ['N','O','P']).toOption = none := by decide

/-! ### Commands, one step each -/

/-- spec/95_test_vectors.md V-SH1. -/
theorem test_shl_moves_left :
    valueAfter 0x00032110 ((State.reset.setU 2 0x1234).setS 3 0x4) 1 = some 0x12340 := by decide

/-- spec/95_test_vectors.md V-SH5. -/
theorem test_shl_uses_all_64_bits_of_the_amount :
    valueAfter 0x00032110 ((State.reset.setU 2 0x1).setS 3 0x100000001) 1 = some 0x0 := by decide

/-- spec/95_test_vectors.md V-SH6. -/
theorem test_shr_reaches_the_last_bit :
    valueAfter 0x00032111 ((State.reset.setU 2 0x8000000000000000000000000000000000000000000000000000000000000000).setS 3 0xFF) 1 = some 0x1 := by decide

/-- spec/95_test_vectors.md V-SH17. -/
theorem test_shr_in_place :
    valueAfter 0x00033311 ((State.reset.setU 3 0x100).setS 3 0x8) 3 = some 0x1 := by decide

/-- spec/95_test_vectors.md V-SH12. -/
theorem test_shli_largest_amount_gives_zero :
    valueAfter 0xFFFF2112 (State.reset.setU 2 0xFFFFFFFFFFFFFFFFFFFFFFFFFFFFFFFFFFFFFFFFFFFFFFFFFFFFFFFFFFFFFFFF) 1 = some 0x0 := by decide

/-- spec/95_test_vectors.md V-SH15. -/
theorem test_shli_in_place_drops_bit_255 :
    valueAfter 0x00011112 (State.reset.setU 1 0x8000000000000000000000000000000000000000000000000000000000000001) 1 = some 0x2 := by decide

/-- spec/95_test_vectors.md V-SH8. -/
theorem test_shri_keeps_the_top_bits :
    valueAfter 0x00FC2113 (State.reset.setU 2 0xFFFFFFFFFFFFFFFFFFFFFFFFFFFFFFFFFFFFFFFFFFFFFFFFFFFFFFFFFFFFFFFF) 1 = some 0xF := by decide

/-- spec/95_test_vectors.md V-SH13. -/
theorem test_shri_crosses_a_word :
    valueAfter 0x00012113 (State.reset.setU 2 0x100000000) 1 = some 0x80000000 := by decide

/-- spec/95_test_vectors.md V-MUL6. -/
theorem test_mul_truncates :
    valueAfter 0x00021320 ((State.reset.setU 1 0x123456789ABCDEFFEDCBA98765432100F1E2D3C4B5A69788796A5B4C3D2E1F0).setU 2 0xDEADBEEF00000001CAFEBABE12345678) 3 = some 0x2D81631FC0960D14E300A446141C065AB18A14517DB9F630A391115D67808880 := by decide

/-- spec/95_test_vectors.md V-MUL2. -/
theorem test_mul_of_the_largest_values :
    valueAfter 0x00021320 ((State.reset.setU 1 0xFFFFFFFFFFFFFFFFFFFFFFFFFFFFFFFFFFFFFFFFFFFFFFFFFFFFFFFFFFFFFFFF).setU 2 0xFFFFFFFFFFFFFFFFFFFFFFFFFFFFFFFFFFFFFFFFFFFFFFFFFFFFFFFFFFFFFFFF) 3 = some 0x1 := by decide

/-- spec/95_test_vectors.md V-MUL12. -/
theorem test_mulw_ignores_the_upper_half :
    valueAfter 0x00021321 ((State.reset.setU 1 0x5).setS 2 0x100000003) 3 = some 0xF := by decide

/-- spec/95_test_vectors.md V-MUL13. -/
theorem test_mulw_largest_word :
    valueAfter 0x00021321 ((State.reset.setU 1 0xFFFFFFFFFFFFFFFFFFFFFFFFFFFFFFFFFFFFFFFFFFFFFFFFFFFFFFFFFFFFFFFF).setS 2 0xFFFFFFFF) 3 = some 0xFFFFFFFFFFFFFFFFFFFFFFFFFFFFFFFFFFFFFFFFFFFFFFFFFFFFFFFF00000001 := by decide

/-- spec/95_test_vectors.md V-MUL14. -/
theorem test_mulwi_in_place :
    valueAfter 0x10001122 (State.reset.setU 1 0x10) 1 = some 0x10000 := by decide

/-- spec/95_test_vectors.md V-MUL16. -/
theorem test_mulwi_discards_high_bits :
    valueAfter 0xFFFF1222 (State.reset.setU 1 0x1000000000000000000000000000000000000000000000000000000000000) 2 = some 0xFFFF000000000000000000000000000000000000000000000000000000000000 := by decide

/-- spec/95_test_vectors.md V-DIV12. -/
theorem test_div_of_the_block_proof :
    valueAfter 0x00021330 ((State.reset.setU 1 0xFFFFFFFF0000FFFFFFFFFFFFFFFFFFFFFFFFFFFFFFFFFFFFFFFFFFFFFFFFFFFF).setU 2 0xFFFF0000000000000000000000000000000000000000000000000001) 3 = some 0x100010000 := by decide

/-- spec/95_test_vectors.md V-CMP6. -/
theorem test_cmp_is_decided_in_word_0 :
    scalarAfter 0x00021140 ((State.reset.setU 1 0x100000000000000000000000000000000000000000000000001).setU 2 0x100000000000000000000000000000000000000000000000002) 1 = some 0xFFFFFFFFFFFFFFFF := by decide

/-- spec/95_test_vectors.md V-CMP7. -/
theorem test_cmp_is_decided_in_word_7 :
    scalarAfter 0x00021140 ((State.reset.setU 1 0x100000000000000000000000000000000000000000000000000000000).setU 2 0xFFFFFFFFFFFFFFFFFFFFFFFFFFFFFFFFFFFFFFFFFFFFFFFFFFFFFFFF) 1 = some 0x1 := by decide

/-- spec/95_test_vectors.md V-EQS6. -/
theorem test_eqs_halves_are_not_swapped :
    scalarAfter 0x00021341 ((State.reset.setU 1 0x100000000).setS 2 0x1) 3 = some 0x0 := by decide

/-- spec/95_test_vectors.md V-EQS7. -/
theorem test_eqs_reads_the_old_scalar :
    scalarAfter 0x00021241 ((State.reset.setU 1 0x9).setS 2 0x9) 2 = some 0x1 := by decide

/-- spec/95_test_vectors.md V-BL4. -/
theorem test_bitlen_of_the_next_word :
    scalarAfter 0x00001142 (State.reset.setU 1 0x100000000) 1 = some 0x21 := by decide

/-- spec/95_test_vectors.md V-BL6. -/
theorem test_bitlen_of_the_largest_value :
    scalarAfter 0x00001142 (State.reset.setU 1 0xFFFFFFFFFFFFFFFFFFFFFFFFFFFFFFFFFFFFFFFFFFFFFFFFFFFFFFFFFFFFFFFF) 1 = some 0x100 := by decide

/-- spec/95_test_vectors.md V-CV6. -/
theorem test_todbl_tie_to_even :
    scalarAfter 0x00001150 (State.reset.setU 1 0x20000000000001) 1 = some 0x4340000000000000 := by decide

/-- spec/95_test_vectors.md V-CV10. -/
theorem test_todbl_sum_order :
    scalarAfter 0x00001150 (State.reset.setU 1 0x18000000000000801) 1 = some 0x43F8000000000000 := by decide

/-- spec/95_test_vectors.md V-MV1. -/
theorem test_movu_copies :
    valueAfter 0x00002151 (State.reset.setU 2 0xFFFFFFFFFFFFFFFFFFFFFFFFFFFFFFFFFFFFFFFFFFFFFFFFFFFFFFFFFFFFFFFF) 1 = some 0xFFFFFFFFFFFFFFFFFFFFFFFFFFFFFFFFFFFFFFFFFFFFFFFFFFFFFFFFFFFFFFFF := by decide

/-- spec/95_test_vectors.md V-MV3. -/
theorem test_setu_clears_the_upper_words :
    valueAfter 0x00001252 ((State.reset.setS 1 0xFFFFFFFFFFFFFFFF).setU 2 0xFFFFFFFFFFFFFFFFFFFFFFFFFFFFFFFFFFFFFFFFFFFFFFFFFFFFFFFFFFFFFFFF) 2 = some 0xFFFFFFFFFFFFFFFF := by decide

/-- spec/95_test_vectors.md V-MV5. -/
theorem test_getlo_takes_the_low_half :
    scalarAfter 0x00001353 (State.reset.setU 1 0x10000000100010001) 3 = some 0x100010001 := by decide

/-- spec/95_test_vectors.md V-MV7. -/
theorem test_sli_loses_the_old_value :
    scalarAfter 0x1D000154 (State.reset.setS 1 0xFFFFFFFFFFFFFFFF) 1 = some 0x1D00 := by decide

/-- spec/95_test_vectors.md V-MV8. -/
theorem test_slih_shifts_in :
    scalarAfter 0xFFFF0155 (State.reset.setS 1 0x1D00) 1 = some 0x1D00FFFF := by decide

/-- spec/95_test_vectors.md V-MV9. -/
theorem test_slih_discards_the_top :
    scalarAfter 0x12340155 (State.reset.setS 1 0xABCD000000000000) 1 = some 0x1234 := by decide

/-- spec/95_test_vectors.md V-AS1. -/
theorem test_add_wraps :
    valueAfter 0x00021360 ((State.reset.setU 1 0xFFFFFFFFFFFFFFFFFFFFFFFFFFFFFFFFFFFFFFFFFFFFFFFFFFFFFFFFFFFFFFFF).setU 2 0x1) 3 = some 0x0 := by decide

/-- spec/95_test_vectors.md V-AS2. -/
theorem test_add_carries_into_word_1 :
    valueAfter 0x00021360 ((State.reset.setU 1 0xFFFFFFFF).setU 2 0x1) 3 = some 0x100000000 := by decide

/-- spec/95_test_vectors.md V-AS5. -/
theorem test_sub_wraps :
    valueAfter 0x00021361 (State.reset.setU 2 0x1) 3 = some 0xFFFFFFFFFFFFFFFFFFFFFFFFFFFFFFFFFFFFFFFFFFFFFFFFFFFFFFFFFFFFFFFF := by decide

/-- spec/95_test_vectors.md V-AS7. -/
theorem test_sub_borrows_from_word_1 :
    valueAfter 0x00021361 ((State.reset.setU 1 0x100000000).setU 2 0x1) 3 = some 0xFFFFFFFF := by decide

/-- spec/95_test_vectors.md V-AS10. -/
theorem test_not_inverts :
    valueAfter 0x00001262 (State.reset.setU 1 0xFFFF0000000000000000000000000000000000000000000000000000) 2 = some 0xFFFFFFFF0000FFFFFFFFFFFFFFFFFFFFFFFFFFFFFFFFFFFFFFFFFFFFFFFFFFFF := by decide

/-- spec/95_test_vectors.md V-AS11. -/
theorem test_not_in_place :
    valueAfter 0x00001162 (State.reset.setU 1 0xFFFFFFFFFFFFFFFFFFFFFFFFFFFFFFFFFFFFFFFFFFFFFFFFFFFFFFFFFFFFFFFF) 1 = some 0x0 := by decide

/-- spec/95_test_vectors.md V-CD16. -/
theorem test_cdec_overflow_truncates :
    valueAfter 0x00001170 (State.reset.setS 1 0x210100FF) 1 = some 0xFF000000000000000000000000000000000000000000000000000000000000 ∧
      flagsAfter 0x00001170 (State.reset.setS 1 0x210100FF) = some (false, true) := by decide

/-- spec/95_test_vectors.md V-CD10. -/
theorem test_cdec_negative_zero_value :
    valueAfter 0x00001170 (State.reset.setS 1 0x1803456) 1 = some 0x0 ∧
      flagsAfter 0x00001170 (State.reset.setS 1 0x1803456) = some (true, false) := by decide

/-- spec/95_test_vectors.md V-CE10. -/
theorem test_cenc_normalises :
    scalarAfter 0x00021371 ((State.reset.setU 1 0xFFFFFF).setS 2 0x0) 3 = some 0x400FFFF := by decide

/-- spec/95_test_vectors.md V-FL7. -/
theorem test_cenc_reads_the_old_flag :
    scalarAfter 0x00021271 ((State.reset.setU 1 0x123456).setS 2 0x1) 2 = some 0x3923456 := by decide

/-- spec/95_test_vectors.md V-FL3. -/
theorem test_rdfl_reads_overflow :
    scalarAfter 0x00000272 (State.reset.setFlags false true) 2 = some 0x2 := by decide

/-- spec/95_test_vectors.md V-DIV7. -/
theorem test_div_by_zero_raises :
    errorAfter 0x00021330 ((State.reset.setU 1 0x64).setU 3 0x9) = some (0x12, 0x00021330) := by decide

/-- spec/95_test_vectors.md V-EX1. -/
theorem test_zero_word_is_illegal :
    errorAfter 0x00000000 (State.reset.setU 1 0x3) = some (0x22, 0x00000000) := by decide

/-- spec/95_test_vectors.md V-EX4. -/
theorem test_illegal_div_word_is_illegal_first :
    errorAfter 0x00121330 ((State.reset.setU 1 0x64).setU 3 0x9) = some (0x22, 0x00121330) := by decide

/-! ### Host accesses (spec/95_test_vectors.md Part 3) -/

/-- V-HA4. -/
theorem test_read_id : repliesAfter (hosting [.access (memRead 0x294)]) = some [0x55323536] := by decide

/-- V-HA3. -/
theorem test_read_word_6 :
    repliesAfter ((hosting [.access (memRead 0x78)]).setU 3 (BitVec.ofNat 256 (0xFFFF * 2 ^ 208))) = some [0xFFFF0000] := by
  decide

/-- V-HA6: STATUS with an illegal command recorded. -/
theorem test_read_status :
    repliesAfter { hosting [.access (memRead 0x284)] with err := true, errcode := 2 } = some [0x22] := by decide

theorem test_refuses_width : refusalOf (hosting [.access ⟨.host, .read, 0, 1⟩]) = some .accessWidth := by decide

theorem test_refuses_misaligned : refusalOf (hosting [.access (memRead 0x2)]) = some .accessMisaligned := by decide

theorem test_refuses_first_reserved : refusalOf (hosting [.access (memRead 0x29C)]) = some .accessReserved := by decide

theorem test_refuses_second_agent : refusalOf (hosting [.access ⟨.other, .read, 0, 4⟩]) = some .accessSecondAgent := by decide

theorem test_refuses_while_busy :
    refusalOf (pendingState 0x00000272 1 [.access (memRead 0x208)]) = some .accessWhileBusy := by decide

theorem test_status_read_while_busy :
    repliesAfter (pendingState 0x00000272 1 [.access (memRead 0x284)]) = some [0x1] := by decide

/-! ### Witnesses: states and operands that meet the hypotheses of the statements -/

theorem witness_EveryLegalWordHasOneMeaning : decode 0x00032110#32 = .ok (.shl 1 2 3) := by decide

theorem witness_LegalWordsAreTheTableRows :
    (∃ m, m ∈ mnemonics ∧ m.Matches 0x00032110#32) ∧ reservedOp (0x0000000F % 2 ^ 8) ∧ reservedOp (0x00000014 % 2 ^ 8) ∧
      reservedOp (0x000000FF % 2 ^ 8) ∧ ¬ reservedOp (0x00100030 % 2 ^ 8) ∧
      ¬ ∃ m, m ∈ mnemonics ∧ m.Matches 0x00100030#32 := by
  refine ⟨⟨.shl, by decide, by decide⟩, ?_, ?_, ?_, ?_, ?_⟩
  · unfold reservedOp; decide
  · unfold reservedOp; decide
  · unfold reservedOp; decide
  · unfold reservedOp; decide
  · rintro ⟨m, -, h⟩
    cases m <;> revert h <;> decide

theorem witness_AssemblerWritesTheEncoding : (assemble ⟨.shl, [.u 1, .u 2, .s 3]⟩).toOption = some 0x00032110#32 := by decide

theorem witness_DivWritesTheFloorQuotient : ((State.reset.setU 1 100).setU 2 7).getU 2 ≠ 0#256 := by decide

theorem witness_DivideByZeroIsRaisedByDivOnly :
    State.reset.getU 2 = 0#256 ∧
      exec (.div 3 1 2) State.reset = .next (raiseException .divideByZero 0x00021330 State.reset) ∧
      (raiseException .divideByZero 0x00021330 State.reset).err ≠ State.reset.err := by
  refine ⟨by decide, by rfl, by decide⟩

theorem witness_ToDoubleIsFiniteAndExactBelow2Pow53 : (BitVec.ofNat 256 (2 ^ 53 - 1)).toNat < 2 ^ 53 := by decide

theorem witness_OverflowFlagMeansTheTargetDoesNotFit :
    (0x2100FFFF#32).toNat / 2 ^ 24 > 3 ∧ compactOvf 0x2100FFFF = false ∧ compactOvf 0x21010000 = true ∧
      (0x04000001#32).toNat / 2 ^ 24 > 3 := by decide

theorem witness_CompactRoundTripIsExactOn23BitMantissas :
    (0xFFFFFF#256 ≠ 0#256 ∧ encodeExponent 0xFFFFFF ≤ 3) ∧ encodeExponent 0x1000000 = 4 ∧
      compactValue (compactEncode 0x7FFFFF true) = 0x7FFFFF ∧ compactValue (compactEncode 0xFFFFFF true) ≠ 0xFFFFFF := by decide

theorem witness_LongDivisionIsTheFloorQuotient : (7#256 ≠ 0#256) ∧ longDivision 100 7 = some 14 ∧ longDivision 100 0 = none := by
  decide

theorem witness_DivideLaws :
    bitLength 0x100 > bitLength 5 ∧ (5#256).toNat < (7#256).toNat ∧ (5#256 ≠ 0#256) ∧ divide 100 7 = some 14 ∧
      bitLength 0 = 0 := by decide

theorem witness_ShiftLaws : shiftRight (shiftLeft 3 255) 255 = 1 ∧ (255 < 256) := by decide

theorem witness_AdditiveLawsAndBlockProof :
    (BitVec.ofNat 256 (2 ^ 256 - 2)).toNat < 2 ^ 256 - 1 ∧ BitVec.ofNat 256 (2 ^ 256 - 2) ≠ 0#256 ∧
      (BitVec.ofNat 256 (2 ^ 256 - 1)).toNat = 2 ^ 256 - 1 := by decide

theorem witness_CommandsLeaveOtherWindowBytesAlone :
    exec (.cdec 1 1) State.reset = .next ((State.reset.setU 1 0).setFlags false false) ∧
      exec (.div 3 1 2) State.reset = .next (raiseException .divideByZero 0x00021330 State.reset) ∧
      ¬ inDestination (.cdec 1 1) 0x01F ∧ ¬ inDestination (.cdec 1 1) 0x040 ∧ ¬ inDestination (.sli 1 5) 0x210 ∧
      ¬ inDestination (.div 3 1 2) 0x288 := by
  refine ⟨by rfl, by rfl, ?_, ?_, ?_, ?_⟩ <;> simp [inDestination]

theorem witness_FlagsAreWrittenByCdecOrResetOnly :
    CompletesNext (pendingState 0x00001170 0 []) ∧ step (pendingState 0x00001170 0 []) =
      .next (endCommand (((pendingState 0x00001170 0 []).setU 1 0).setFlags false false)) := ⟨by decide, by rfl⟩

theorem witness_LastcmdIsWrittenAtAcceptanceOnly :
    ∃ t, step (hosting [.access (memWrite 0x280 0x272)]) = .next t ∧ t.lastcmd = 0x272 := ⟨_, by rfl, by rfl⟩

theorem witness_StepRunsTheDecodedCommand :
    let s := pendingState 0x00070254 0 [.waitIdle]
    s.pending = some 0x00070254 ∧ CompletesNext s ∧ decode 0x00070254 = .ok (.sli 2 7) ∧
      exec (.sli 2 7) s = .next (s.setS 2 7) := by
  refine ⟨by decide, by decide, by decide, by rfl⟩

theorem witness_StepRunsTheDecodedCommand_idle_host :
    (pendingState 0x00070254 3 []).pending = some 0x00070254 ∧ CompletesNext (pendingState 0x00070254 3 []) := by decide

theorem witness_ErrorEntryIsPrecise :
    (pendingState 0x00000014 0 []).pending = some 0x00000014 ∧ CompletesNext (pendingState 0x00000014 0 []) ∧
      decode 0x00000014 = .error (.reservedOpcode 0x14) ∧ (pendingState 0x00021330 0 []).pending = some 0x00021330 ∧
      decode 0x00021330 = .ok (.div 3 1 2) ∧ (pendingState 0x00021330 0 []).getU 2 = 0#256 := by decide

theorem witness_FirstErrorIsKept :
    (errorState [.access (memWrite 0x28C 1)]).Inv ∧ (errorState []).err = true ∧ (0x00100030#32).toNat % 2 ^ 8 = 0x30 ∧
      (0x00100030#32).toNat / 2 ^ 20 ≠ 0 := by decide

theorem witness_FirstErrorIsKept_steps :
    step (errorState [.access (memWrite 0x28C 1)]) = .next (clearError (errorState [])) := by rfl

theorem witness_CmdWriteIsAcceptedUnlessAnErrorIsRecorded :
    Idle (hosting [.access (memWrite 0x280 0x272)]) ∧ (hosting []).err = false ∧
      Idle (errorState [.access (memWrite 0x280 0x272)]) ∧ (errorState []).err = true := by decide

theorem witness_AcceptedCommandDrawsAFreeLatency :
    Idle (hosting [.access (memWrite 0x280 0x272)]) ∧ (hosting [.access (memWrite 0x280 0x272)]).err = false := by decide

theorem witness_DiscardedCommandIsNotReplayed :
    let s := errorState [.access (memWrite 0x280#10 0x272), .access (memWrite 0x28C#10 1#32)]
    Idle s ∧ s.err = true := by decide

theorem witness_CtrlWriteActsAndReadsZero :
    Idle (errorState [.access (memWrite 0x28C 3)]) ∧ (3#32).getLsbD 1 = true ∧ (1#32).getLsbD 1 = false ∧
      (1#32).getLsbD 0 = true ∧ (4#32).getLsbD 1 = false ∧ (4#32).getLsbD 0 = false ∧
      (errorState [.access (memRead 0x28C)]).inputs = [.access (memRead 0x28C)] := by decide

theorem witness_BothResetsHaveTheSameEffect :
    HostFirst (pendingState 0x272 1 [.powerOnReset]) ∧ HostFirst (hosting [.powerOnReset]) ∧ Idle (hosting []) ∧
      (2#32).getLsbD 1 = true := by decide

theorem witness_ValueRegistersInTheWindow :
    Idle (hosting [.access (memWrite (BitVec.ofNat 10 (0x20 * (15#4).toNat + 4 * 7)) 1)]) ∧
      Idle (hosting [.access (memRead (BitVec.ofNat 10 (0x20 * (0#4).toNat + 4 * 0)))]) ∧
      BitVec.ofNat 10 (0x20 * (15#4).toNat + 31) = 0x1FF#10 := by decide

theorem witness_ScalarRegistersInTheWindow :
    Idle (hosting [.access (memWrite (BitVec.ofNat 10 (0x204 + 8 * (15#4).toNat)) 1)]) ∧
      Idle (hosting [.access (memRead (BitVec.ofNat 10 (0x200 + 8 * (0#4).toNat)))]) ∧
      BitVec.ofNat 10 (0x200 + 8 * (15#4).toNat + 7) = 0x27F#10 := by decide

theorem witness_ReadOnlyRegistersIgnoreWrites :
    Idle (hosting [.access (memWrite 0x284 0xFFFFFFFF)]) ∧ Idle (hosting [.access (memWrite 0x298 0)]) := by decide

theorem witness_ReadsHaveNoSideEffectOnTheUnit :
    HostFirst (hosting [.access (memRead 0x280)]) ∧
      step (hosting [.access (memRead 0x280)]) = .next { hosting [] with replies := [0] } := ⟨by decide, by rfl⟩

theorem witness_AccessesAreRefusedExactlyOnTheGroundsListed :
    HostFirst (hosting [.access (memRead 0x29C)]) ∧ HostFirst (pendingState 0x272 1 [.access (memRead 0x208)]) ∧
      HostFirst (hosting [.access (memRead 0x298)]) := by decide

theorem witness_EveryStepKeepsTheInvariant :
    (pendingState 0x00021330 0 []).Inv ∧
      step (pendingState 0x00021330 0 []) =
        .next (endCommand (raiseException .divideByZero 0x00021330 (pendingState 0x00021330 0 []))) := ⟨by decide, by rfl⟩

theorem witness_DutifulHostIsNeverRefused :
    (hosting [.access (memWrite 0x20 5), .access (memWrite 0x280 0x1142), .waitIdle, .access (memRead 0x208)]).Inv ∧
      keepsDuty false [.access (memWrite 0x20 5), .access (memWrite 0x280 0x1142), .waitIdle, .access (memRead 0x208)] = true ∧
      keepsDuty false [.access (memWrite 0x280 0x1142), .access (memRead 0x208)] = false := by decide

theorem witness_WaitIdleReturnsAfterTheCompletion :
    (pendingState 0x00070254 2 [.waitIdle]).pending = some 0x00070254 ∧ (pendingState 0x00070254 2 [.waitIdle]).busy = true ∧
      (pendingState 0x00070254 2 [.waitIdle]).inputs = [.waitIdle] := by decide

theorem witness_UnitActsOnTheRecordOnly :
    SameUnit State.reset (hosting [.waitIdle]) ∧ State.reset ≠ hosting [.waitIdle] := ⟨by rfl, by decide⟩

theorem witness_NoLatencyIsDrawnTwice :
    (∃ t, step (hosting [.access (memWrite 0x280 0x272)]) = .next t ∧ t.accepted = 1 ∧ t.pending = some 0x272) ∧
      ∃ t, step (pendingState 0x00070254 2 [.powerOnReset]) = .next t ∧ t.accepted = 0 ∧ t.wait = 0 :=
  ⟨⟨_, by rfl, by rfl, by rfl⟩, _, by rfl, by rfl, by rfl⟩

end Sys2Proof.Tests
end

section
/-! The layer of facts: what a word, an access and a step can do, each said once; a step in which the host makes one
access; and the registers of the control block of the window. -/

namespace Sys2Proof.Proofs

open Sys2Proof.Machine Sys2Proof.Laws

/-! ### Command words -/

/-- A word in format RRR is the encoding of its own fields. -/
theorem encodeRRR_fields (m : Mnemonic) (w : Word) (hop : fieldOp w = m.op) (hz : sbzZero .rrr w = true) :
    encodeRRR m (fieldRd w) (fieldRa w) (fieldRb w) = w := by
  have hlow := fieldOp_toNat w
  have hsbz := (sbzZero_rrr w).1 hz
  apply BitVec.eq_of_toNat_eq
  rw [encodeRRR_toNat, fieldRd_toNat, fieldRa_toNat, fieldRb_toNat, ← hop, hlow]
  omega

/-- The word a DIV was decoded from is the encoding of that DIV, so the word DIV records is the pending one (log 10). -/
theorem encode_div_of_decode {w : Word} {d a b : UReg} (h : decode w = .ok (.div d a b)) : encode (.div d a b) = w := by
  unfold decode at h
  -- Every row but DIV's own answers another command.
  split at h <;> simp [checked_eq_ok] at h
  next hop =>
    obtain ⟨hz, rfl, rfl, rfl⟩ := h
    exact encodeRRR_fields .div w (BitVec.eq_of_toNat_eq hop) hz

/-- Everything executing a word can do: write one value register, write one scalar register, write a value register and
both flags (CDEC only), or record this very word with the error it raises (R61, R114). -/
theorem executeWord_effect (w : Word) (s : State) :
    (∃ d v, executeWord w s = .next (s.setU d v)) ∨ (∃ d v, executeWord w s = .next (s.setS d v)) ∨
      (∃ d a v n o, decode w = .ok (.cdec d a) ∧ executeWord w s = .next ((s.setU d v).setFlags n o)) ∨
      (∃ x, errorMatches (errorCode x) w = true ∧ executeWord w s = .next (raiseException x w s)) := by
  cases hw : decode w with
  | error e => exact .inr (.inr (.inr ⟨.illegalCommand, by simp [errorMatches, hw, errorCode], by simp [executeWord, hw]⟩))
  | ok i =>
    have hx : executeWord w s = exec i s := by simp [executeWord, hw]
    rw [hx]
    rcases exec_effect i s with hU | hS | ⟨d, a, v, n, o, rfl, he⟩ | ⟨d, a, b, rfl, -, he⟩
    · exact .inl hU
    · exact .inr (.inl hS)
    · exact .inr (.inr (.inl ⟨d, a, v, n, o, rfl, he⟩))
    · rw [encode_div_of_decode hw] at he
      exact .inr (.inr (.inr ⟨.divideByZero, by simp [errorMatches, hw, errorCode], he⟩))

/-! ### Accesses -/

@[simp] theorem hostRead_toUnitState (g : WindowReg) (s : State) : (hostRead g s).toUnitState = s.toUnitState := by
  cases g <;> rfl

@[simp] theorem waitIdleRound_toUnitState (rest : List HostEvent) (s : State) :
    (waitIdleRound rest s).toUnitState = s.toUnitState := rfl

theorem cmdWrite_discarded {s : State} (herr : s.err = true) (v : Word) : cmdWrite v s = s := by simp [cmdWrite, herr]

theorem cmdWrite_accepted {s : State} (herr : s.err = false) (v : Word) :
    cmdWrite v s = { accept v (Config.latency s.accepted) s with accepted := s.accepted + 1 } := by
  simp only [cmdWrite, herr]
  rfl

theorem ctrlWrite_softReset {v : Word} (h1 : v.getLsbD 1 = true) (s : State) : ctrlWrite v s = resetUnit s := if_pos h1

theorem ctrlWrite_clrErr {v : Word} (h1 : v.getLsbD 1 = false) (h0 : v.getLsbD 0 = true) (s : State) :
    ctrlWrite v s = clearError s := by
  simp only [ctrlWrite, h1, h0]
  rfl

theorem ctrlWrite_ignored {v : Word} (h1 : v.getLsbD 1 = false) (h0 : v.getLsbD 0 = false) (s : State) :
    ctrlWrite v s = s := by
  simp only [ctrlWrite, h1, h0]
  rfl

/-- Everything a write of a register of the window can do (R40, R41, R60, R30, R33). -/
theorem writeReg_effect (g : WindowReg) (v : Word) (s : State) :
    (∃ d x, writeReg g v s = s.setU d x) ∨ (∃ d x, writeReg g v s = s.setS d x) ∨
      (g = .cmd ∧ s.err = false ∧
        writeReg g v s = { accept v (Config.latency s.accepted) s with accepted := s.accepted + 1 }) ∨
      (g = .ctrl ∧ v.getLsbD 1 = false ∧ v.getLsbD 0 = true ∧ writeReg g v s = clearError s) ∨
      (g = .ctrl ∧ v.getLsbD 1 = true ∧ writeReg g v s = resetUnit s) ∨ writeReg g v s = s := by
  cases g with
  | limbU i j => exact .inl ⟨_, _, rfl⟩
  | lowS i | highS i => exact .inr (.inl ⟨_, _, rfl⟩)
  | cmd =>
    cases herr : s.err with
    | false => exact .inr (.inr (.inl ⟨rfl, rfl, cmdWrite_accepted herr v⟩))
    | true => simp [writeReg, cmdWrite_discarded herr]
  | ctrl =>
    cases h1 : v.getLsbD 1 with
    | true => exact .inr (.inr (.inr (.inr (.inl ⟨rfl, rfl, ctrlWrite_softReset h1 s⟩))))
    | false =>
      cases h0 : v.getLsbD 0 with
      | true => exact .inr (.inr (.inr (.inl ⟨rfl, rfl, rfl, ctrlWrite_clrErr h1 h0 s⟩)))
      | false => simp [writeReg, ctrlWrite_ignored h1 h0]
  | status | flags | errcmd | id | version => simp [writeReg]

/-- An access that is carried out is the host's, 32 bits wide, at a register of the window, and keeps the BUSY duty. -/
theorem hostAccess_next {a : Access} {s t : State} (h : hostAccess a s = .next t) :
    a.agent = .host ∧ a.bytes = 4 ∧ ∃ g, windowReg a.off = .ok g ∧
      ((s.awaiting || s.busy) = false ∨ allowedWhileBusy g a.kind = true) ∧ t = performAccess g a.kind s := by
  have hagent : a.agent = .host := by by_contra hn; simp [hostAccess, hn] at h
  have hbytes : a.bytes = 4 := by by_contra hn; simp [hostAccess, hagent, hn] at h
  rcases hostAccess_effect a s with ⟨r, hr⟩ | ⟨g, hg, hduty, hn⟩
  · rw [hr] at h; cases h
  · rw [hn] at h; cases h
    exact ⟨hagent, hbytes, g, hg, hduty, rfl⟩

/-! ### The step -/

theorem completesNow_iff (s : State) : completesNow s = true ↔ CompletesNext s := by simp [completesNow, CompletesNext]

/-- What a step that gives a next state was (R48): the completion of the pending command or the host's next event. -/
inductive StepEffect (s : State) : State → Prop
  /-- the pending word was executed (R61) -/
  | completion (w : Word) (u : State) (pending : s.pending = some w) (now : CompletesNext s)
      (executed : executeWord w s = .next u) : StepEffect s (endCommand u)
  /-- nothing pending and no event left (R124) -/
  | idle (pending : s.pending = none) (inputs : s.inputs = []) : StepEffect s s
  /-- an access was carried out (R47, R129) -/
  | access (a : Access) (rest : List HostEvent) (g : WindowReg) (first : HostFirst s) (inputs : s.inputs = .access a :: rest)
      (agent : a.agent = .host) (bytes : a.bytes = 4) (reg : windowReg a.off = .ok g)
      (duty : (s.awaiting || s.busy) = false ∨ allowedWhileBusy g a.kind = true) :
      StepEffect s (performAccess g a.kind { s with inputs := rest })
  /-- one round of WaitIdle (R128) -/
  | waitIdle (rest : List HostEvent) (first : HostFirst s) (inputs : s.inputs = .waitIdle :: rest) :
      StepEffect s (waitIdleRound rest s)
  /-- the power-on reset input (R125) -/
  | powerOnReset (rest : List HostEvent) (first : HostFirst s) (inputs : s.inputs = .powerOnReset :: rest) :
      StepEffect s (resetUnit { s with inputs := rest })

theorem stepEffect_of_complete {s t : State} {w : Word} (hp : s.pending = some w) (hc : CompletesNext s)
    (h : complete w s = .next t) : StepEffect s t := by
  unfold complete at h
  split at h
  next u hu => cases h; exact .completion w u hp hc hu
  all_goals cases h

theorem stepEffect_of_hostTurn {s t : State} (hf : s.pending = none ∨ completesNow s = false)
    (h : hostTurn s = .next t) : StepEffect s t := by
  have hfirst : HostFirst s := hf.imp_right fun hc hw => by simp [completesNow, hw] at hc
  unfold hostTurn at h
  split at h
  next hin =>
    cases h
    exact .idle (hf.resolve_right (by simp [completesNow, hin])) hin
  next a rest hin =>
    obtain ⟨hagent, hbytes, g, hreg, hduty, rfl⟩ := hostAccess_next h
    exact .access a rest g hfirst hin hagent hbytes hreg hduty
  next rest hin => cases h; exact .waitIdle rest hfirst hin
  next rest hin => cases h; exact .powerOnReset rest hfirst hin

/-- Every step that gives a next state is one of the kinds of `StepEffect`. -/
theorem step_effect {s t : State} (h : step s = .next t) : StepEffect s t := by
  cases hp : s.pending with
  | none =>
    rw [step_hostTurn s (.inl hp)] at h
    exact stepEffect_of_hostTurn (.inl hp) h
  | some w =>
    cases hc : completesNow s with
    | true =>
      rw [step_completes s w hp hc] at h
      exact stepEffect_of_complete hp ((completesNow_iff s).1 hc) h
    | false =>
      rw [step_hostTurn s (.inr hc)] at h
      exact stepEffect_of_hostTurn (.inr hc) h

/-! ### One access of the host in an idle state -/

/-- In a state in which the host may make any access, an access with a meaning is the next step. -/
theorem step_access_of_idle {s : State} {a : Access} {rest : List HostEvent} {g : WindowReg} (hs : Idle s)
    (hin : s.inputs = .access a :: rest) (hagent : a.agent = .host) (hbytes : a.bytes = 4)
    (hreg : windowReg a.off = .ok g) : step s = .next (performAccess g a.kind { s with inputs := rest }) := by
  obtain ⟨hpending, hbusy, hawaiting⟩ := hs
  rw [step_hostTurn s (.inl hpending)]
  simp [hostTurn, hin, hostAccess, hagent, hbytes, hreg, hbusy, hawaiting]

theorem step_write_of_idle {s : State} {off : Offset} {v : Word} {rest : List HostEvent} {g : WindowReg} (hs : Idle s)
    (hreg : windowReg off = .ok g) (hin : s.inputs = .access (memWrite off v) :: rest) :
    step s = .next (writeReg g v { s with inputs := rest }) :=
  step_access_of_idle hs hin rfl rfl hreg

theorem step_read_of_idle {s : State} {off : Offset} {rest : List HostEvent} {g : WindowReg} (hs : Idle s)
    (hreg : windowReg off = .ok g) (hin : s.inputs = .access (memRead off) :: rest) :
    step s = .next (hostRead g { s with inputs := rest }) :=
  step_access_of_idle hs hin rfl rfl hreg

/-! ### The control block of the window (R25) -/

theorem windowReg_cmd : windowReg 0x280#10 = .ok .cmd := rfl
theorem windowReg_status : windowReg 0x284#10 = .ok .status := rfl
theorem windowReg_flags : windowReg 0x288#10 = .ok .flags := rfl
theorem windowReg_ctrl : windowReg 0x28C#10 = .ok .ctrl := rfl
theorem windowReg_errcmd : windowReg 0x290#10 = .ok .errcmd := rfl
theorem windowReg_id : windowReg 0x294#10 = .ok .id := rfl
theorem windowReg_version : windowReg 0x298#10 = .ok .version := rfl

theorem windowWord_of_reg {off : Offset} {g : WindowReg} (h : windowReg off = .ok g) (s : State) :
    windowWord off s = .ok (readReg g s) := by simp [windowWord, h]

/-- The fields of STATUS as one number (R26). -/
theorem statusWord_eq (s : State) :
    statusWord s =
      BitVec.ofNat 32 (s.errcode.toNat * 16 + (if s.err then 2 else 0) + (if s.busy then 1 else 0)) := by
  unfold statusWord
  generalize s.errcode = code, s.err = err, s.busy = busy
  revert code err busy
  decide

/-- The fields of FLAGS as one number (R24). -/
theorem flagsWord_eq (s : State) :
    flagsWord s = BitVec.ofNat 32 ((if s.ovf then 2 else 0) + (if s.neg then 1 else 0)) := by
  unfold flagsWord
  generalize s.ovf = ovf, s.neg = neg
  revert ovf neg
  decide

end Sys2Proof.Proofs
end

section
/-! The invariant of the unit: it holds at reset, and each operation of a step keeps it. -/

namespace Sys2Proof.Proofs

open Sys2Proof.Machine Sys2Proof.Laws

theorem inv_setU {s : State} (h : s.Inv) (d : UReg) (v : Value) : (s.setU d v).Inv := h

theorem inv_setS {s : State} (h : s.Inv) (d : SReg) (v : Scalar) : (s.setS d v).Inv := h

theorem inv_inputs {s : State} (h : s.Inv) (es : List HostEvent) : State.Inv { s with inputs := es } := h

theorem inv_deliver {s : State} (h : s.Inv) (v : Word) : (deliver v s).Inv := h

/-- A read of STATUS ends the BUSY duty only when BUSY = 0, that is when nothing is pending. -/
theorem inv_observeStatus {s : State} (h : s.Inv) : (observeStatus s).Inv := by
  obtain ⟨hbusy, herror, hpending⟩ := h
  refine ⟨hbusy, herror, hpending.imp ?_ ?_⟩
  · rintro ⟨hnone, hwait⟩
    exact ⟨hnone, by simp [hwait]⟩
  · rintro ⟨hsome, herr, hawaiting⟩
    have hb : s.busy = true := by rw [hbusy, hsome]; rfl
    exact ⟨hsome, herr, by simp [hawaiting, hb]⟩

theorem inv_hostRead {s : State} (h : s.Inv) (g : WindowReg) : (hostRead g s).Inv := by
  cases g with
  | status => exact inv_deliver (inv_observeStatus h) _
  | _ => exact inv_deliver h _

/-- An acceptance is made with ERR = 0, so the error state it leaves is the cleared one (R60). -/
theorem inv_accept {s : State} (h : s.Inv) (herr : s.err = false) (v : Word) (n k : Nat) :
    State.Inv { accept v n s with accepted := k } := by
  obtain ⟨-, herror, -⟩ := h
  have hclear : s.errcode = 0#4 ∧ s.errcmd = 0#32 := by simpa [ErrorIsConsistent, herr] using herror
  exact ⟨rfl, .inl ⟨herr, hclear⟩, .inr ⟨rfl, herr, rfl⟩⟩

theorem inv_clearError {s : State} (h : s.Inv) : (clearError s).Inv := by
  obtain ⟨hbusy, -, hpending⟩ := h
  exact ⟨hbusy, .inl ⟨rfl, rfl, rfl⟩, hpending.imp id fun ⟨hsome, _, hawaiting⟩ => ⟨hsome, rfl, hawaiting⟩⟩

theorem inv_resetUnit (s : State) : (resetUnit s).Inv := ⟨rfl, .inl ⟨rfl, rfl, rfl⟩, .inl ⟨rfl, rfl⟩⟩

theorem inv_writeReg {s : State} (h : s.Inv) (g : WindowReg) (v : Word) : (writeReg g v s).Inv := by
  rcases writeReg_effect g v s with ⟨d, x, e⟩ | ⟨d, x, e⟩ | ⟨-, herr, e⟩ | ⟨-, -, -, e⟩ | ⟨-, -, e⟩ | e <;> rw [e]
  · exact inv_setU h d x
  · exact inv_setS h d x
  · exact inv_accept h herr v _ _
  · exact inv_clearError h
  · exact inv_resetUnit s
  · exact h

/-- After a completion only the error state is left to be consistent. -/
theorem inv_endCommand {s : State} (h : ErrorIsConsistent s) : (endCommand s).Inv := ⟨rfl, h, .inl ⟨rfl, rfl⟩⟩

/-- Executing the pending word leaves the error state clear, or describing that word, which is the last accepted one. -/
theorem errorIsConsistent_executeWord {s u : State} {w : Word} (h : s.Inv) (hp : s.pending = some w)
    (hu : executeWord w s = .next u) : ErrorIsConsistent u := by
  obtain ⟨-, herror, hpending⟩ := h
  have hlast : w = s.lastcmd := by
    rcases hpending with ⟨hnone, -⟩ | ⟨hsome, -, -⟩
    · rw [hnone] at hp; cases hp
    · rw [hsome] at hp; cases hp; rfl
  rcases executeWord_effect w s with ⟨d, v, e⟩ | ⟨d, v, e⟩ | ⟨d, a, v, n, o, -, e⟩ | ⟨x, hx, e⟩ <;> rw [e] at hu <;> cases hu
  · exact herror
  · exact herror
  · exact herror
  · exact .inr ⟨rfl, hlast, hx⟩

/-- Settles O52: by the kind of the step, each operation keeping the invariant by its own lemma. -/
theorem everyStepKeepsTheInvariant : Obligations.EveryStepKeepsTheInvariant := by
  unfold Obligations.EveryStepKeepsTheInvariant
  intro s t h hst
  cases step_effect hst with
  | completion w u hp _ hu => exact inv_endCommand (errorIsConsistent_executeWord h hp hu)
  | idle => exact h
  | access a rest g =>
    cases a.kind with
    | read => exact inv_hostRead (inv_inputs h rest) g
    | write v => exact inv_writeReg (inv_inputs h rest) g v
  | waitIdle rest => exact inv_inputs (inv_hostRead h .status) _
  | powerOnReset rest => exact inv_resetUnit _

/-- Settles O51: the reset state is what a reset leaves. -/
theorem invariantHoldsAtReset : Obligations.InvariantHoldsAtReset := by
  unfold Obligations.InvariantHoldsAtReset
  exact inv_resetUnit State.reset

end Sys2Proof.Proofs
end

section
/-! Which steps write FLAGS and LASTCMD. -/

namespace Sys2Proof.Proofs

open Sys2Proof.Machine Sys2Proof.Laws

/-- Executing a word other than a CDEC writes no flag. -/
theorem flags_executeWord {s u : State} {w : Word} (hu : executeWord w s = .next u) :
    (u.neg = s.neg ∧ u.ovf = s.ovf) ∨ ∃ d a, decode w = .ok (.cdec d a) := by
  rcases executeWord_effect w s with ⟨d, v, e⟩ | ⟨d, v, e⟩ | ⟨d, a, v, n, o, hw, e⟩ | ⟨x, -, e⟩ <;> rw [e] at hu <;> cases hu
  · exact .inl ⟨rfl, rfl⟩
  · exact .inl ⟨rfl, rfl⟩
  · exact .inr ⟨d, a, hw⟩
  · exact .inl ⟨rfl, rfl⟩

/-- A host write changes a flag by SOFT_RESET only. -/
theorem flags_writeReg (g : WindowReg) (v : Word) (s : State) :
    ((writeReg g v s).neg = s.neg ∧ (writeReg g v s).ovf = s.ovf) ∨ SameUnit State.reset (writeReg g v s) := by
  rcases writeReg_effect g v s with ⟨d, x, e⟩ | ⟨d, x, e⟩ | ⟨-, -, e⟩ | ⟨-, -, -, e⟩ | ⟨-, -, e⟩ | e <;> rw [e]
  case inr.inr.inr.inr.inl => exact .inr rfl
  all_goals exact .inl ⟨rfl, rfl⟩

/-- Settles O33: by the kind of the step. -/
theorem flagsAreWrittenByCdecOrResetOnly : Obligations.FlagsAreWrittenByCdecOrResetOnly := by
  unfold Obligations.FlagsAreWrittenByCdecOrResetOnly
  intro s t hst
  cases step_effect hst with
  | completion w u hp hnow hu =>
    exact (flags_executeWord hu).imp id fun ⟨d, a, hw⟩ => .inl ⟨w, d, a, hp, hnow, hw⟩
  | idle => exact .inl ⟨rfl, rfl⟩
  | access a rest g =>
    cases a.kind with
    | read => simp [performAccess]
    | write v => exact (flags_writeReg g v { s with inputs := rest }).imp id .inr
  | waitIdle rest => simp
  | powerOnReset rest => exact .inr (.inr rfl)

/-- No command writes LASTCMD. -/
theorem lastcmd_executeWord {s u : State} {w : Word} (hu : executeWord w s = .next u) : u.lastcmd = s.lastcmd := by
  rcases executeWord_effect w s with ⟨d, v, e⟩ | ⟨d, v, e⟩ | ⟨d, a, v, n, o, -, e⟩ | ⟨x, -, e⟩ <;> rw [e] at hu <;>
    cases hu <;> rfl

/-- A host write changes LASTCMD by an acceptance or by SOFT_RESET only. -/
theorem lastcmd_writeReg (g : WindowReg) (v : Word) (s : State) :
    (writeReg g v s).lastcmd = s.lastcmd ∨
      (g = .cmd ∧ s.err = false ∧ (writeReg g v s).lastcmd = v ∧ (writeReg g v s).pending = some v) ∨
      SameUnit State.reset (writeReg g v s) := by
  rcases writeReg_effect g v s with ⟨d, x, e⟩ | ⟨d, x, e⟩ | ⟨hg, herr, e⟩ | ⟨-, -, -, e⟩ | ⟨-, -, e⟩ | e <;> rw [e]
  case inr.inr.inl => exact .inr (.inl ⟨hg, herr, rfl, rfl⟩)
  case inr.inr.inr.inr.inl => exact .inr (.inr rfl)
  all_goals exact .inl rfl

/-- An access that writes `v` to CMD, with a meaning, is `MemWrite(0x280, 4, v)`. -/
theorem eq_memWrite_cmd {a : Access} {v : Word} (hagent : a.agent = .host) (hbytes : a.bytes = 4)
    (hreg : windowReg a.off = .ok .cmd) (hkind : a.kind = .write v) : a = memWrite 0x280#10 v := by
  have hoff := (windowReg_cmd_iff a.off).1 hreg
  cases a
  simp_all [memWrite]

/-- Settles O34: by the kind of the step. -/
theorem lastcmdIsWrittenAtAcceptanceOnly : Obligations.LastcmdIsWrittenAtAcceptanceOnly := by
  unfold Obligations.LastcmdIsWrittenAtAcceptanceOnly
  intro s t hst
  cases step_effect hst with
  | completion w u _ _ hu => exact .inl ((endCommand_lastcmd u).trans (lastcmd_executeWord hu))
  | idle => exact .inl rfl
  | access a rest g _ hin hagent hbytes hreg =>
    cases hkind : a.kind with
    | read => simp [performAccess]
    | write v =>
      refine (lastcmd_writeReg g v { s with inputs := rest }).imp id (.imp_left ?_)
      rintro ⟨rfl, herr, hlast, hpending⟩
      rw [eq_memWrite_cmd hagent hbytes hreg hkind] at hin
      exact ⟨v, rest, hin, herr, hlast, hpending⟩
  | waitIdle rest => simp
  | powerOnReset rest => exact .inr (.inr rfl)

end Sys2Proof.Proofs
end

section
/-! What the unit does depends on its record only (R20): the host's side is never read, and never written by a command. -/

namespace Sys2Proof.Proofs

open Sys2Proof.Machine Sys2Proof.Laws

/-- `f` reads the unit's record only. -/
def ReadsRecordOnly {α : Type} (f : State → α) : Prop := ∀ u h h', f ⟨u, h⟩ = f ⟨u, h'⟩

/-- `f` reads and writes the unit's record only, and always has a next state. -/
def ActsOnRecordOnly (f : State → Result) : Prop := ∀ u, ∃ u', ∀ h, f ⟨u, h⟩ = .next ⟨u', h⟩

theorem ReadsRecordOnly.eq {α : Type} {f : State → α} (hf : ReadsRecordOnly f) {s s' : State} (h : SameUnit s s') :
    f s' = f s := by
  obtain ⟨u, _⟩ := s
  obtain ⟨u', _⟩ := s'
  obtain rfl : u' = u := h
  exact hf ..

theorem ActsOnRecordOnly.exists_next {f : State → Result} (hf : ActsOnRecordOnly f) {s s' : State} (h : SameUnit s s') :
    ∃ t, f s = .next t ∧ t.toHostSide = s.toHostSide ∧ f s' = .next { s' with toUnitState := t.toUnitState } := by
  obtain ⟨u, host⟩ := s
  obtain ⟨u', host'⟩ := s'
  obtain rfl : u' = u := h
  obtain ⟨r, hr⟩ := hf u'
  exact ⟨⟨r, host⟩, hr host, rfl, hr host'⟩

/-- A state is given its next one by a function that leaves the host's side and reads no more than the record. -/
theorem actsOnRecordOnly_next {f : State → State} (hhost : ∀ s, (f s).toHostSide = s.toHostSide)
    (hunit : ReadsRecordOnly fun s => (f s).toUnitState) : ActsOnRecordOnly fun s => .next (f s) := fun u =>
  ⟨(f ⟨u, HostSide.reset⟩).toUnitState, fun h => congrArg _ (state_eq_of_parts (hunit u h _) (hhost ⟨u, h⟩))⟩

theorem actsOnRecordOnly_setU {d : UReg} {v : State → Value} (hv : ReadsRecordOnly v) :
    ActsOnRecordOnly fun s => .next (s.setU d (v s)) :=
  actsOnRecordOnly_next (fun _ => rfl) fun u h h' => by simp only [hv u h h']; rfl

theorem actsOnRecordOnly_setS {d : SReg} {v : State → Scalar} (hv : ReadsRecordOnly v) :
    ActsOnRecordOnly fun s => .next (s.setS d (v s)) :=
  actsOnRecordOnly_next (fun _ => rfl) fun u h h' => by simp only [hv u h h']; rfl

theorem actsOnRecordOnly_raiseException (x : UnitException) (w : Word) :
    ActsOnRecordOnly fun s => .next (raiseException x w s) :=
  actsOnRecordOnly_next (fun _ => rfl) fun _ _ _ => rfl

theorem actsOnRecordOnly_execDiv (d a b : UReg) : ActsOnRecordOnly (execDiv d a b) := by
  intro u
  have hread (h : HostSide) :
      divide (State.getU ⟨u, h⟩ a) (State.getU ⟨u, h⟩ b) =
        divide (State.getU ⟨u, HostSide.reset⟩ a) (State.getU ⟨u, HostSide.reset⟩ b) := rfl
  simp only [execDiv, hread]
  cases divide (State.getU ⟨u, HostSide.reset⟩ a) (State.getU ⟨u, HostSide.reset⟩ b) with
  | none => exact actsOnRecordOnly_raiseException _ _ u
  | some q => exact actsOnRecordOnly_setU (v := fun _ => q) (fun _ _ _ => rfl) u

theorem actsOnRecordOnly_exec (i : Instr) : ActsOnRecordOnly (exec i) := by
  cases i with
  | div d a b => exact actsOnRecordOnly_execDiv d a b
  | cdec d a => exact actsOnRecordOnly_next (fun _ => rfl) fun _ _ _ => rfl
  | cmp | eqs | bitlen | todbl | getlo | sli | slih | cenc | rdfl => exact actsOnRecordOnly_setS fun _ _ _ => rfl
  | _ => exact actsOnRecordOnly_setU fun _ _ _ => rfl

theorem actsOnRecordOnly_executeWord (w : Word) : ActsOnRecordOnly (executeWord w) := by
  unfold executeWord
  cases decode w with
  | error e => exact actsOnRecordOnly_raiseException .illegalCommand w
  | ok i => exact actsOnRecordOnly_exec i

theorem readsRecordOnly_readReg (g : WindowReg) : ReadsRecordOnly (readReg g) := by
  intro u h h'
  cases g <;> rfl

theorem readsRecordOnly_windowWord (off : Offset) : ReadsRecordOnly (windowWord off) := by
  intro u h h'
  unfold windowWord
  cases windowReg off with
  | ok g => exact congrArg Except.ok (readsRecordOnly_readReg g u h h')
  | error e => rfl

theorem readsRecordOnly_writeReg (g : WindowReg) (v : Word) : ReadsRecordOnly fun s => (writeReg g v s).toUnitState := by
  intro u h h'
  cases g with
  | cmd =>
    simp only [writeReg, cmdWrite]
    split <;> rfl
  | ctrl =>
    simp only [writeReg, ctrlWrite]
    split
    · rfl
    · split <;> rfl
  | _ => rfl

/-- Settles O55: executing a word acts on the record only, and reads and writes of the window read the record only. -/
theorem unitActsOnTheRecordOnly : Obligations.UnitActsOnTheRecordOnly := by
  unfold Obligations.UnitActsOnTheRecordOnly
  intro s s' h
  exact ⟨fun w => (actsOnRecordOnly_executeWord w).exists_next h, fun off => (readsRecordOnly_windowWord off).eq h,
    fun g v => (readsRecordOnly_writeReg g v).eq h⟩

end Sys2Proof.Proofs
end

section
/-! The control block: what the host reads there, what its writes do, and the reset values. -/

namespace Sys2Proof.Proofs

open Sys2Proof.Machine Sys2Proof.Laws

/-- Settles O41: by the two bits of the word written that CTRL looks at. -/
theorem ctrlWriteActsAndReadsZero : Obligations.CtrlWriteActsAndReadsZero := by
  unfold Obligations.CtrlWriteActsAndReadsZero
  intro s v rest hs
  refine ⟨fun hin => ?_, fun hin => step_read_of_idle hs windowReg_ctrl hin⟩
  rw [step_write_of_idle hs windowReg_ctrl hin, writeReg]
  refine ⟨fun h1 => ?_, fun h1 h0 => ?_, fun h1 h0 => ?_⟩
  · rw [ctrlWrite_softReset h1]
    exact ⟨_, rfl, rfl, rfl, rfl⟩
  · rw [ctrlWrite_clrErr h1 h0]
    rfl
  · rw [ctrlWrite_ignored h1 h0]

/-- Settles O42: the register files by a read of a replicated vector, every other field as the reset record states it. -/
theorem resetStateHoldsTheResetValues : Obligations.ResetStateHoldsTheResetValues := by
  unfold Obligations.ResetStateHoldsTheResetValues
  refine ⟨fun r => by simp [State.getU], fun r => by simp [State.getS], ?_⟩
  exact ⟨rfl, rfl, rfl, rfl, rfl, rfl, rfl, rfl, rfl, rfl⟩

/-- Settles O47: at each of the five offsets the write is carried out and is no write of anything. -/
theorem readOnlyRegistersIgnoreWrites : Obligations.ReadOnlyRegistersIgnoreWrites := by
  unfold Obligations.ReadOnlyRegistersIgnoreWrites
  rintro s off v rest hs (rfl | rfl | rfl | rfl | rfl) hin
  · exact step_write_of_idle hs windowReg_status hin
  · exact step_write_of_idle hs windowReg_flags hin
  · exact step_write_of_idle hs windowReg_errcmd hin
  · exact step_write_of_idle hs windowReg_id hin
  · exact step_write_of_idle hs windowReg_version hin

/-- Settles O48: each offset by its register, STATUS and FLAGS by their fields as numbers. -/
theorem statusFlagsAndConstantsRead : Obligations.StatusFlagsAndConstantsRead := by
  unfold Obligations.StatusFlagsAndConstantsRead
  intro s
  rw [← statusWord_eq, ← flagsWord_eq]
  exact ⟨windowWord_of_reg windowReg_cmd s, windowWord_of_reg windowReg_status s, windowWord_of_reg windowReg_flags s,
    windowWord_of_reg windowReg_errcmd s, windowWord_of_reg windowReg_id s, windowWord_of_reg windowReg_version s⟩

end Sys2Proof.Proofs
end

section
/-! The register window: at which offset each register stands, and which of its bytes a command leaves alone. -/

namespace Sys2Proof.Proofs

open Sys2Proof.Machine Sys2Proof.Laws

/-! ### The offset of a register -/

/-- The offset at which a register of the window begins (R25, R39). -/
def regOffset : WindowReg → Nat
  | .limbU i j => 0x20 * i.toNat + 4 * j.toNat
  | .lowS i => 0x200 + 8 * i.toNat
  | .highS i => 0x204 + 8 * i.toNat
  | .cmd => 0x280
  | .status => 0x284
  | .flags => 0x288
  | .ctrl => 0x28C
  | .errcmd => 0x290
  | .id => 0x294
  | .version => 0x298

theorem regOffset_of_windowReg {off : Offset} {g : WindowReg} (h : windowReg off = .ok g) : off.toNat = regOffset g := by
  simp only [windowReg] at h
  repeat' split at h
  all_goals cases h
  all_goals simp only [regOffset, BitVec.toNat_ofNat]
  all_goals omega

/-- The offset of the register a byte lies in. -/
theorem toNat_alignedOffset (off : Offset) : (BitVec.ofNat 10 (off.toNat / 4 * 4)).toNat = off.toNat / 4 * 4 := by
  have := off.isLt
  simp only [BitVec.toNat_ofNat]
  omega

theorem windowByte_of_reg {off : Offset} {g : WindowReg} (h : windowReg (BitVec.ofNat 10 (off.toNat / 4 * 4)) = .ok g)
    (s : State) : windowByte off s = .ok ((readReg g s).extractLsb' (8 * (off.toNat % 4)) 8) := by
  simp [windowByte, windowWord_of_reg h]

/-- A byte reads the same in two states in which the register it lies in does. -/
theorem windowByte_congr {off : Offset} {s t : State}
    (h : ∀ g, regOffset g ≤ off.toNat → off.toNat < regOffset g + 4 → readReg g t = readReg g s) :
    windowByte off t = windowByte off s := by
  cases hreg : windowReg (BitVec.ofNat 10 (off.toNat / 4 * 4)) with
  | error e => simp [windowByte, windowWord, hreg]
  | ok g =>
    have hoff : off.toNat / 4 * 4 = regOffset g := (toNat_alignedOffset off).symm.trans (regOffset_of_windowReg hreg)
    rw [windowByte_of_reg hreg, windowByte_of_reg hreg, h g (by omega) (by omega)]

/-! ### What an operation of the unit leaves alone -/

theorem readReg_setU {g : WindowReg} {d : UReg} (h : ∀ j, g ≠ .limbU d j) (v : Value) (s : State) :
    readReg g (s.setU d v) = readReg g s := by
  cases g with
  | limbU i j =>
    have hi : i ≠ d := fun e => h j (e ▸ rfl)
    simp [readReg, getU_setU, hi]
  | _ => rfl

theorem readReg_setS {g : WindowReg} {d : SReg} (hlow : g ≠ .lowS d) (hhigh : g ≠ .highS d) (v : Scalar) (s : State) :
    readReg g (s.setS d v) = readReg g s := by
  cases g with
  | lowS i =>
    have hi : i ≠ d := fun e => hlow (e ▸ rfl)
    simp [readReg, getS_setS, hi]
  | highS i =>
    have hi : i ≠ d := fun e => hhigh (e ▸ rfl)
    simp [readReg, getS_setS, hi]
  | _ => rfl

theorem readReg_setFlags {g : WindowReg} (h : g ≠ .flags) (n o : Bool) (s : State) :
    readReg g (s.setFlags n o) = readReg g s := by
  cases g with
  | flags => exact absurd rfl h
  | _ => rfl

theorem readReg_raiseException {g : WindowReg} (hstatus : g ≠ .status) (herrcmd : g ≠ .errcmd) (x : UnitException)
    (w : Word) (s : State) : readReg g (raiseException x w s) = readReg g s := by
  cases g with
  | status => exact absurd rfl hstatus
  | errcmd => exact absurd rfl herrcmd
  | _ => rfl

theorem windowByte_setU {off : Offset} {d : UReg}
    (h : ¬ (0x20 * d.toNat ≤ off.toNat ∧ off.toNat < 0x20 * d.toNat + 0x20)) (v : Value) (s : State) :
    windowByte off (s.setU d v) = windowByte off s := by
  refine windowByte_congr fun g hlo hhi => readReg_setU ?_ v s
  rintro j rfl
  have hj : j.toNat < 8 := j.isLt
  simp only [regOffset] at hlo hhi
  omega

theorem windowByte_setS {off : Offset} {d : SReg}
    (h : ¬ (0x200 + 8 * d.toNat ≤ off.toNat ∧ off.toNat < 0x208 + 8 * d.toNat)) (v : Scalar) (s : State) :
    windowByte off (s.setS d v) = windowByte off s := by
  refine windowByte_congr fun g hlo hhi => readReg_setS ?_ ?_ v s
  all_goals
    rintro rfl
    simp only [regOffset] at hlo hhi
    omega

theorem windowByte_setFlags {off : Offset} (h : ¬ (0x288 ≤ off.toNat ∧ off.toNat < 0x28C)) (n o : Bool) (s : State) :
    windowByte off (s.setFlags n o) = windowByte off s := by
  refine windowByte_congr fun g hlo hhi => readReg_setFlags ?_ n o s
  rintro rfl
  exact h ⟨hlo, hhi⟩

theorem windowByte_raiseException {off : Offset} (hstatus : ¬ (0x284 ≤ off.toNat ∧ off.toNat < 0x288))
    (herrcmd : ¬ (0x290 ≤ off.toNat ∧ off.toNat < 0x294)) (x : UnitException) (w : Word) (s : State) :
    windowByte off (raiseException x w s) = windowByte off s := by
  refine windowByte_congr fun g hlo hhi => readReg_raiseException ?_ ?_ x w s
  · rintro rfl
    exact hstatus ⟨hlo, hhi⟩
  · rintro rfl
    exact herrcmd ⟨hlo, hhi⟩

/-- What a command does, with the place of the register it writes: `exec_effect` with the destination of the command. -/
theorem exec_writes_destination (i : Instr) (s : State) :
    (∃ d v, (∀ off, inDestination i off ↔ 0x20 * d.toNat ≤ off.toNat ∧ off.toNat < 0x20 * d.toNat + 0x20) ∧
        exec i s = .next (s.setU d v)) ∨
      (∃ d v, (∀ off, inDestination i off ↔ 0x200 + 8 * d.toNat ≤ off.toNat ∧ off.toNat < 0x208 + 8 * d.toNat) ∧
        exec i s = .next (s.setS d v)) ∨
      (∃ d a v n o, i = .cdec d a ∧ exec i s = .next ((s.setU d v).setFlags n o)) ∨
      (∃ d a b w, i = .div d a b ∧ exec i s = .next (raiseException .divideByZero w s)) := by
  cases i with
  | div d a b =>
    cases hq : divide (s.getU a) (s.getU b) with
    | none => exact .inr (.inr (.inr ⟨d, a, b, encode (.div d a b), rfl, by simp only [exec, execDiv, hq]⟩))
    | some q => exact .inl ⟨d, q, fun _ => .rfl, by simp only [exec, execDiv, hq]⟩
  | cdec d a => exact .inr (.inr (.inl ⟨d, a, _, _, _, rfl, rfl⟩))
  | cmp | eqs | bitlen | todbl | getlo | sli | slih | cenc | rdfl => exact .inr (.inl ⟨_, _, fun _ => .rfl, rfl⟩)
  | _ => exact .inl ⟨_, _, fun _ => .rfl, rfl⟩

/-- Settles O32: by what the command did, each operation leaving the bytes of the other registers alone. -/
theorem commandsLeaveOtherWindowBytesAlone : Obligations.CommandsLeaveOtherWindowBytesAlone := by
  unfold Obligations.CommandsLeaveOtherWindowBytesAlone
  intro i s t off hx hdest hflags herror
  rcases exec_writes_destination i s with ⟨d, v, hd, e⟩ | ⟨d, v, hd, e⟩ | ⟨d, a, v, n, o, rfl, e⟩ | ⟨d, a, b, w, rfl, e⟩ <;>
    rw [e] at hx <;> cases hx
  · exact windowByte_setU (mt (hd off).2 hdest) v s
  · exact windowByte_setS (mt (hd off).2 hdest) v s
  · rw [windowByte_setFlags (hflags d a rfl), windowByte_setU hdest]
  · obtain ⟨hstatus, herrcmd⟩ := herror d a b rfl
    exact windowByte_raiseException hstatus herrcmd _ w s

end Sys2Proof.Proofs
end

section
/-! The words of a value: which bits a word depends on, and a value with a word replaced. -/

namespace Sys2Proof.Proofs

open Sys2Proof.Machine Sys2Proof.Laws

theorem two_pow_next_word (j : Nat) : 2 ^ (32 * (j + 1)) = 2 ^ (32 * j) * 2 ^ 32 := by rw [← pow_add]; rfl

/-- Values that agree below word `j` have the same words there. -/
theorem limb_eq_of_mod_eq {v w : Value} {j k : Nat} (hkj : k < j)
    (h : v.toNat % 2 ^ (32 * j) = w.toNat % 2 ^ (32 * j)) : limb v k = limb w k := by
  have hdvd : 2 ^ (32 * k) * 2 ^ 32 ∣ 2 ^ (32 * j) := by
    rw [← pow_add]
    exact pow_dvd_pow 2 (by omega)
  apply BitVec.eq_of_toNat_eq
  rw [limb_toNat, limb_toNat, ← Nat.mod_mul_right_div_self, ← Nat.mod_mul_right_div_self, ← Nat.mod_mod_of_dvd v.toNat hdvd,
    h, Nat.mod_mod_of_dvd _ hdvd]

/-- Values that agree from word `j` up have the same words there. -/
theorem limb_eq_of_div_eq {v w : Value} {j k : Nat} (hjk : j ≤ k)
    (h : v.toNat / 2 ^ (32 * j) = w.toNat / 2 ^ (32 * j)) : limb v k = limb w k := by
  have hpow : 2 ^ (32 * k) = 2 ^ (32 * j) * 2 ^ (32 * (k - j)) := by
    rw [← pow_add]
    congr 1
    omega
  apply BitVec.eq_of_toNat_eq
  rw [limb_toNat, limb_toNat, hpow, ← Nat.div_div_eq_div_mul, ← Nat.div_div_eq_div_mul, h]

/-- A number split at word `j`: the words above it, the word itself and the words below it. -/
theorem split_at_word (n j : Nat) :
    n = (n / 2 ^ (32 * (j + 1)) * 2 ^ 32 + n / 2 ^ (32 * j) % 2 ^ 32) * 2 ^ (32 * j) + n % 2 ^ (32 * j) := by
  rw [two_pow_next_word, ← Nat.div_div_eq_div_mul, Nat.div_add_mod', Nat.div_add_mod']

/-- The parts of a number that is not past bit 256, put together with another word, are not past it either. -/
theorem joined_at_word_lt {n j x r : Nat} (hn : n < 2 ^ 256) (hj : j < 8) (hx : x < 2 ^ 32) (hr : r < 2 ^ (32 * j)) :
    (n / 2 ^ (32 * (j + 1)) * 2 ^ 32 + x) * 2 ^ (32 * j) + r < 2 ^ 256 := by
  have hpow : 2 ^ (32 * (j + 1)) * 2 ^ (256 - 32 * (j + 1)) = 2 ^ 256 := by
    rw [← pow_add]
    congr 1
    omega
  have hhigh : n / 2 ^ (32 * (j + 1)) < 2 ^ (256 - 32 * (j + 1)) := Nat.div_lt_of_lt_mul (by rwa [hpow])
  calc (n / 2 ^ (32 * (j + 1)) * 2 ^ 32 + x) * 2 ^ (32 * j) + r
      < (n / 2 ^ (32 * (j + 1)) * 2 ^ 32 + x + 1) * 2 ^ (32 * j) := by rw [Nat.add_one_mul (_ + x)]; omega
    _ ≤ (2 ^ 32 * 2 ^ (256 - 32 * (j + 1))) * 2 ^ (32 * j) := Nat.mul_le_mul_right _ (by omega)
    _ = 2 ^ 256 := by rw [← hpow, two_pow_next_word]; ring

/-- A value with a word replaced: the words above it, the new word and the words below it (R40). -/
theorem setLimb_toNat (v : Value) {j : Nat} (hj : j < 8) (x : Word) :
    (setLimb v j x).toNat =
      (v.toNat / 2 ^ (32 * (j + 1)) * 2 ^ 32 + x.toNat) * 2 ^ (32 * j) + v.toNat % 2 ^ (32 * j) := by
  have hlow : v.toNat % 2 ^ (32 * j) < 2 ^ (32 * j) := Nat.mod_lt _ (by positivity)
  have hsplit := split_at_word v.toNat j
  rw [← limb_toNat, Nat.add_mul] at hsplit
  rw [← Nat.mod_eq_of_lt (joined_at_word_lt v.isLt hj x.isLt hlow), setLimb, BitVec.toNat_ofNat, Nat.add_mul]
  congr 1
  omega

/-- Settles O45: a word below the replaced one is a matter of the low part, a word above it of the high part. -/
theorem valueWordWriteKeepsTheOtherWords : Obligations.ValueWordWriteKeepsTheOtherWords := by
  unfold Obligations.ValueWordWriteKeepsTheOtherWords
  intro v j k x hj _
  have hlow : v.toNat % 2 ^ (32 * j) < 2 ^ (32 * j) := Nat.mod_lt _ (by positivity)
  have hword : (setLimb v j x).toNat / 2 ^ (32 * j) = v.toNat / 2 ^ (32 * (j + 1)) * 2 ^ 32 + x.toNat := by
    rw [setLimb_toNat v hj, mul_comm, Nat.mul_add_div (by positivity), Nat.div_eq_of_lt hlow, Nat.add_zero]
  rcases lt_trichotomy k j with hlt | rfl | hgt
  · rw [if_neg hlt.ne]
    refine limb_eq_of_mod_eq hlt ?_
    rw [setLimb_toNat v hj, Nat.mul_add_mod', Nat.mod_mod]
  · rw [if_pos rfl]
    apply BitVec.eq_of_toNat_eq
    rw [limb_toNat, hword, Nat.mul_add_mod', Nat.mod_eq_of_lt x.isLt]
  · rw [if_neg hgt.ne']
    refine limb_eq_of_div_eq (Nat.succ_le_of_lt hgt) ?_
    have hx : x.toNat < 2 ^ 32 := x.isLt
    rw [two_pow_next_word, ← Nat.div_div_eq_div_mul, hword, ← two_pow_next_word]
    omega

end Sys2Proof.Proofs
end

section
/-! The value and scalar registers in the window: their bytes, and the words the host reads and writes there. -/

namespace Sys2Proof.Proofs

open Sys2Proof.Machine Sys2Proof.Laws

/-! ### The bytes of a register -/

/-- Byte m of word j of a bit vector is its byte 4 j + m (R40, R41). -/
theorem extractLsb'_byte_of_word {n : Nat} (x : BitVec n) (j : Nat) {m : Nat} (hm : m < 4) :
    (x.extractLsb' (32 * j) 32).extractLsb' (8 * m) 8 = x.extractLsb' (8 * (4 * j + m)) 8 := by
  apply BitVec.eq_of_getLsbD_eq
  intro b hb
  have hb' : 8 * m + b < 32 := by omega
  have hbit : 32 * j + (8 * m + b) = 8 * (4 * j + m) + b := by omega
  simp only [BitVec.getLsbD_extractLsb', hb, hb', hbit, decide_true, Bool.true_and]

/-- The byte at offset `o` of the register that stands at `o` or up to three bytes before it. -/
theorem windowByte_at {o : Nat} {g : WindowReg} (ho : o < 1024) (h : windowReg (BitVec.ofNat 10 (o / 4 * 4)) = .ok g)
    (s : State) : windowByte (BitVec.ofNat 10 o) s = .ok ((readReg g s).extractLsb' (8 * (o % 4)) 8) := by
  have hoff : (BitVec.ofNat 10 o).toNat = o := by
    rw [BitVec.toNat_ofNat]
    exact Nat.mod_eq_of_lt ho
  have h' := windowByte_of_reg (off := BitVec.ofNat 10 o) (g := g) (by rwa [hoff]) s
  rwa [hoff] at h'

/-! ### Writes that change one register -/

theorem onlyU_setU (d : UReg) (v : Value) (s : State) : OnlyU d v s (s.setU d v) :=
  ⟨getU_setU_same s d v, fun r hr => by rw [getU_setU, if_neg hr], rfl⟩

theorem onlyS_setS (d : SReg) (v : Scalar) (s : State) : OnlyS d v s (s.setS d v) :=
  ⟨getS_setS_same s d v, fun r hr => by rw [getS_setS, if_neg hr], rfl⟩

theorem windowByte_value (s : State) (i : UReg) {k : Nat} (hk : k < 32) :
    windowByte (BitVec.ofNat 10 (0x20 * i.toNat + k)) s = .ok ((s.getU i).extractLsb' (8 * k) 8) := by
  have hi := i.isLt
  have hword : (0x20 * i.toNat + k) / 4 * 4 = 0x20 * i.toNat + 4 * (k / 4) := by omega
  have hbyte : (0x20 * i.toNat + k) % 4 = k % 4 := by omega
  have hj : (BitVec.ofNat 3 (k / 4)).toNat = k / 4 := by simp only [BitVec.toNat_ofNat]; omega
  rw [windowByte_at (by omega) (by rw [hword, windowReg_limbU i (k / 4) (by omega)]), hbyte, readReg, hj, limb,
    extractLsb'_byte_of_word _ _ (Nat.mod_lt k (by decide)), Nat.div_add_mod]

/-- Settles O44: the bytes by the word they lie in, a read and a write by the word at the offset. -/
theorem valueRegistersInTheWindow : Obligations.ValueRegistersInTheWindow := by
  unfold Obligations.ValueRegistersInTheWindow
  have hindex {j : Nat} (hj : j < 8) : (BitVec.ofNat 3 j).toNat = j := Nat.mod_eq_of_lt hj
  refine ⟨fun s i k hk => windowByte_value s i hk, fun s i j rest hj hs hin => ?_, fun s i j v rest hj hs hin => ?_⟩
  · have hword : BitVec.ofNat 32 ((s.getU i).toNat / 2 ^ (32 * j) % 2 ^ 32) = limb (s.getU i) j := by
      rw [← limb_toNat, BitVec.ofNat_toNat, BitVec.setWidth_eq]
    rw [step_read_of_idle hs (windowReg_limbU i j hj) hin, hword]
    simp only [hostRead, readReg, hindex hj]
    rfl
  · refine ⟨_, step_write_of_idle hs (windowReg_limbU i j hj) hin, ?_⟩
    rw [← limb_toNat]
    simp only [writeReg, hindex hj]
    exact onlyU_setU i _ _

theorem windowByte_scalar (s : State) (i : SReg) {k : Nat} (hk : k < 8) :
    windowByte (BitVec.ofNat 10 (0x200 + 8 * i.toNat + k)) s = .ok ((s.getS i).extractLsb' (8 * k) 8) := by
  have hi := i.isLt
  have hbyte : (0x200 + 8 * i.toNat + k) % 4 = k % 4 := by omega
  rcases Nat.lt_or_ge k 4 with hlow | hhigh
  · have hword : (0x200 + 8 * i.toNat + k) / 4 * 4 = 0x200 + 8 * i.toNat := by omega
    have hk' : 4 * 0 + k % 4 = k := by omega
    rw [windowByte_at (by omega) (by rw [hword, windowReg_lowS i]), hbyte, readReg, lowHalf,
      extractLsb'_byte_of_word (s.getS i) 0 (Nat.mod_lt k (by decide)), hk']
  · have hword : (0x200 + 8 * i.toNat + k) / 4 * 4 = 0x204 + 8 * i.toNat := by omega
    have hk' : 4 * 1 + k % 4 = k := by omega
    rw [windowByte_at (by omega) (by rw [hword, windowReg_highS i]), hbyte, readReg, highHalf,
      extractLsb'_byte_of_word (s.getS i) 1 (Nat.mod_lt k (by decide)), hk']

/-- Settles O46: the bytes by the half they lie in, a read and a write by the half at the offset. -/
theorem scalarRegistersInTheWindow : Obligations.ScalarRegistersInTheWindow := by
  unfold Obligations.ScalarRegistersInTheWindow
  refine ⟨fun s i k hk => windowByte_scalar s i hk, fun s i rest hs => ⟨fun hin => ?_, fun hin => ?_⟩,
    fun s i v rest hs => ⟨fun hin => ?_, fun hin => ?_⟩⟩
  · exact step_read_of_idle hs (windowReg_lowS i) hin
  · exact step_read_of_idle hs (windowReg_highS i) hin
  · exact ⟨_, step_write_of_idle hs (windowReg_lowS i) hin, onlyS_setS i _ _⟩
  · exact ⟨_, step_write_of_idle hs (windowReg_highS i) hin, onlyS_setS i _ _⟩

end Sys2Proof.Proofs
end

section
/-! A read of the window. -/

namespace Sys2Proof.Proofs

open Sys2Proof.Machine Sys2Proof.Laws

@[simp] theorem hostRead_inputs (g : WindowReg) (s : State) : (hostRead g s).inputs = s.inputs := by
  cases g <;> rfl

@[simp] theorem hostRead_replies (g : WindowReg) (s : State) :
    (hostRead g s).replies = s.replies ++ [readReg g s] := by
  cases g <;> rfl

/-- While the host comes first and its next event is an access, the step is that access, carried out or refused (R48). -/
theorem step_access_of_hostFirst {s : State} {a : Access} {rest : List HostEvent} (hfirst : HostFirst s)
    (hin : s.inputs = .access a :: rest) : step s = hostAccess a { s with inputs := rest } := by
  have hturn : s.pending = none ∨ completesNow s = false :=
    hfirst.imp_right fun hwait => by simp [completesNow, hwait, hin]
  rw [step_hostTurn s hturn]
  simp only [hostTurn, hin]

/-- Settles O49: the step is the host's access, a read, which delivers the value of the register at the offset. -/
theorem readsHaveNoSideEffectOnTheUnit : Obligations.ReadsHaveNoSideEffectOnTheUnit := by
  unfold Obligations.ReadsHaveNoSideEffectOnTheUnit
  intro s t a rest hfirst hin hread hst
  rw [step_access_of_hostFirst hfirst hin] at hst
  obtain ⟨-, -, g, hreg, -, rfl⟩ := hostAccess_next hst
  rw [hread]
  have hvalue : readReg g { s with inputs := rest } = readReg g s := readsRecordOnly_readReg g _ _ _
  exact ⟨hostRead_toUnitState g _, hostRead_inputs g _, readReg g s, windowWord_of_reg hreg s,
    (hostRead_replies g _).trans (by rw [hvalue])⟩

end Sys2Proof.Proofs
end

section
/-! Words and commands: the command of a row with the fields of a word, and the decoder as a lookup of the row followed by the
must-be-zero check (30_encoding.md R54 to R59). -/

namespace Sys2Proof.Proofs

open Sys2Proof.Machine Sys2Proof.Laws

/-! ### A word as the encoding of its fields

`encodeRRR_fields` above is the same for format RRR. -/

theorem encodeRR_fields (m : Mnemonic) (w : Word) (hop : fieldOp w = m.op) (hz : sbzZero .rr w = true) :
    encodeRR m (fieldRd w) (fieldRa w) = w := by
  have hlow := fieldOp_toNat w
  have hsbz := (sbzZero_rr w).1 hz
  apply BitVec.eq_of_toNat_eq
  rw [encodeRR_toNat, fieldRd_toNat, fieldRa_toNat, ← hop, hlow]
  omega

theorem encodeRI_fields (m : Mnemonic) (w : Word) (hop : fieldOp w = m.op) :
    encodeRI m (fieldRd w) (fieldRa w) (fieldImm w) = w := by
  have hlow := fieldOp_toNat w
  have := w.isLt
  apply BitVec.eq_of_toNat_eq
  rw [encodeRI_toNat, fieldRd_toNat, fieldRa_toNat, fieldImm_toNat, ← hop, hlow]
  omega

theorem encodeDI_fields (m : Mnemonic) (w : Word) (hop : fieldOp w = m.op) (hz : sbzZero .di w = true) :
    encodeDI m (fieldRd w) (fieldImm w) = w := by
  have hlow := fieldOp_toNat w
  have hsbz := (sbzZero_di w).1 hz
  have := w.isLt
  apply BitVec.eq_of_toNat_eq
  rw [encodeDI_toNat, fieldRd_toNat, fieldImm_toNat, ← hop, hlow]
  omega

theorem encodeD_fields (m : Mnemonic) (w : Word) (hop : fieldOp w = m.op) (hz : sbzZero .d w = true) :
    encodeD m (fieldRd w) = w := by
  have hlow := fieldOp_toNat w
  have hsbz := (sbzZero_d w).1 hz
  apply BitVec.eq_of_toNat_eq
  rw [encodeD_toNat, fieldRd_toNat, ← hop, hlow]
  omega

/-! ### The command of a row -/

/-- The command of a row of the opcode map; a field that the row's format does not have is not looked at (R55, R57). -/
def rowCommand (m : Mnemonic) (d a b : BitVec 4) (imm : Imm16) : Instr :=
  match m with
  | .shl => .shl d a b
  | .shr => .shr d a b
  | .shli => .shli d a imm
  | .shri => .shri d a imm
  | .mul => .mul d a b
  | .mulw => .mulw d a b
  | .mulwi => .mulwi d a imm
  | .div => .div d a b
  | .cmp => .cmp d a b
  | .eqs => .eqs d a b
  | .bitlen => .bitlen d a
  | .todbl => .todbl d a
  | .movu => .movu d a
  | .setu => .setu d a
  | .getlo => .getlo d a
  | .sli => .sli d imm
  | .slih => .slih d imm
  | .add => .add d a b
  | .sub => .sub d a b
  | .not => .not d a
  | .cdec => .cdec d a
  | .cenc => .cenc d a b
  | .rdfl => .rdfl d

/-- The command of a row with the fields of a word (R54). -/
def commandOf (m : Mnemonic) (w : Word) : Instr := rowCommand m (fieldRd w) (fieldRa w) (fieldRb w) (fieldImm w)

/-- Encoding loses no field that the command's row has. -/
theorem commandOf_encode (i : Instr) : commandOf i.mnemonic (encode i) = i := by
  cases i <;> simp [commandOf, rowCommand, Instr.mnemonic, encode]

/-- Encoding the command read from a word with the row's opcode and zero SBZ bits gives the word, by the row's format. -/
theorem encode_commandOf {m : Mnemonic} {w : Word} (hop : fieldOp w = m.op) (hz : sbzZero m.format w = true) :
    encode (commandOf m w) = w := by
  cases m with
  | shl | shr | mul | mulw | div | cmp | eqs | add | sub | cenc => exact encodeRRR_fields _ w hop hz
  | bitlen | todbl | movu | setu | getlo | not | cdec => exact encodeRR_fields _ w hop hz
  | shli | shri | mulwi => exact encodeRI_fields _ w hop
  | sli | slih => exact encodeDI_fields _ w hop hz
  | rdfl => exact encodeD_fields _ w hop hz

/-- Every command's word carries its row's opcode and zeros in its SBZ bits. -/
theorem encodedRow (i : Instr) : EncodedRow.Statement i := by
  cases i
  exacts [EncodedRow.shl .., EncodedRow.shr .., EncodedRow.shli .., EncodedRow.shri .., EncodedRow.mul ..,
    EncodedRow.mulw .., EncodedRow.mulwi .., EncodedRow.div .., EncodedRow.cmp .., EncodedRow.eqs ..,
    EncodedRow.bitlen .., EncodedRow.todbl .., EncodedRow.movu .., EncodedRow.setu .., EncodedRow.getlo ..,
    EncodedRow.sli .., EncodedRow.slih .., EncodedRow.add .., EncodedRow.sub .., EncodedRow.not ..,
    EncodedRow.cdec .., EncodedRow.cenc .., EncodedRow.rdfl ..]

/-! ### The decoder as a lookup of the row -/

/-- With the opcode of a row, the decoder is that row's must-be-zero check (R59). -/
theorem decode_of_op {m : Mnemonic} {w : Word} (hop : fieldOp w = m.op) :
    decode w = checked m.format w (commandOf m w) := by
  unfold decode
  rw [hop]
  cases m <;> rfl

/-- An opcode is the one of a row exactly when it is not reserved (R57, R58). -/
theorem reservedOp_iff (op : BitVec 8) : reservedOp op.toNat ↔ ∀ m : Mnemonic, op ≠ m.op := by
  constructor
  · rintro h m rfl
    revert h
    cases m <;> simp [reservedOp, Mnemonic.op]
  · intro h
    have hrows : ∀ m ∈ mnemonics, op.toNat ≠ m.op.toNat := fun m _ e => h m (BitVec.eq_of_toNat_eq e)
    have hlt := op.isLt
    simp only [mnemonics, List.forall_mem_cons, Mnemonic.op, BitVec.reduceToNat] at hrows
    unfold reservedOp
    omega

/-- With a reserved opcode the decoder names it (R58). -/
theorem decode_of_reservedOp {w : Word} (h : reservedOp (fieldOp w).toNat) :
    decode w = .error (.reservedOpcode (fieldOp w)) := by
  unfold decode
  split
  case h_24 => rfl
  -- The opcode of a row is not a reserved one.
  all_goals
    unfold reservedOp at h
    omega

/-- The opcode of a word is the one of a row, or it is reserved. -/
theorem fieldOp_cases (w : Word) : (∃ m : Mnemonic, fieldOp w = m.op) ∨ reservedOp (fieldOp w).toNat := by
  rw [reservedOp_iff, ← not_exists]
  exact Classical.em _

/-- The words that decode: a row's opcode and zero SBZ bits; the command is read from the fields (R58, R59). -/
theorem decode_eq_ok_iff (w : Word) (i : Instr) :
    decode w = .ok i ↔ ∃ m : Mnemonic, fieldOp w = m.op ∧ sbzZero m.format w = true ∧ commandOf m w = i := by
  constructor
  · intro h
    rcases fieldOp_cases w with ⟨m, hop⟩ | hres
    · rw [decode_of_op hop, checked_eq_ok] at h
      exact ⟨m, hop, h⟩
    · rw [decode_of_reservedOp hres] at h
      cases h
  · rintro ⟨m, hop, h⟩
    rw [decode_of_op hop, checked_eq_ok]
    exact h

theorem decode_encode (i : Instr) : decode (encode i) = .ok i := by
  obtain ⟨hop, hz⟩ := encodedRow i
  exact (decode_eq_ok_iff _ _).2 ⟨i.mnemonic, hop, hz, commandOf_encode i⟩

theorem decodeTableWord_toNat (w : Word) : decodeTableWord 32 w.toNat = (decode w).toOption := by
  rw [decodeTableWord, if_pos le_rfl, Nat.mod_eq_of_lt w.isLt, BitVec.ofNat_toNat, BitVec.setWidth_eq]

/-- Settles O1: the word of a command has its row's opcode and zero SBZ bits, and no field is lost in it. -/
theorem decodeReadsEncodedCommand : Obligations.DecodeReadsEncodedCommand := by
  unfold Obligations.DecodeReadsEncodedCommand
  intro i
  refine ⟨decode_encode i, ?_⟩
  rw [decodeTableWord_toNat, decode_encode]
  rfl

/-- Settles O2: a word that decodes has a row's opcode and zero SBZ bits, so it is the encoding of its own fields. -/
theorem everyLegalWordHasOneMeaning : Obligations.EveryLegalWordHasOneMeaning := by
  unfold Obligations.EveryLegalWordHasOneMeaning
  intro w i h
  obtain ⟨m, hop, hz, rfl⟩ := (decode_eq_ok_iff w i).1 h
  exact encode_commandOf hop hz

/-- Settles O4: each word evaluated. -/
theorem sampleWordsDecode : Obligations.SampleWordsDecode := by
  unfold Obligations.SampleWordsDecode
  exact ⟨rfl, rfl, rfl, rfl, rfl, rfl⟩

end Sys2Proof.Proofs
end

section
/-! The rows of the opcode map as masks: matching a row is having its opcode and zero SBZ bits (30_encoding.md R55, R57, R58). -/

namespace Sys2Proof.Proofs

open Sys2Proof.Machine Sys2Proof.Laws

/-- The lowest SBZ bit of a format and how many there are (R55). -/
def sbzBits : Format → Nat × Nat
  | .rrr => (20, 12)
  | .rr => (16, 16)
  | .ri => (8, 0)
  | .di => (12, 4)
  | .d => (12, 20)

theorem sbzZero_eq_sbzBits (f : Format) (w : Word) :
    sbzZero f w = true ↔ w.extractLsb' (sbzBits f).1 (sbzBits f).2 = 0 := by
  cases f with
  | ri => exact iff_of_true rfl (BitVec.eq_nil (w.extractLsb' 8 0))
  | _ => exact beq_iff_eq

/-- The mask of a format is its op and SBZ bits (R55). -/
theorem getLsbD_mask (f : Format) : ∀ k < 32,
    f.mask.getLsbD k = (decide (k < 8) || decide ((sbzBits f).1 ≤ k ∧ k < (sbzBits f).1 + (sbzBits f).2)) := by
  cases f <;> decide

/-- No op bit is an SBZ bit (R55). -/
theorem le_sbzBits_fst (f : Format) : 8 ≤ (sbzBits f).1 := by
  cases f <;> decide

/-- No SBZ bit lies outside the word. -/
theorem sbzBits_le (f : Format) : (sbzBits f).1 + (sbzBits f).2 ≤ 32 := by
  cases f <;> decide

theorem matches_iff_masked_bits (m : Mnemonic) (w : Word) :
    m.Matches w ↔ ∀ k < 32, (w.getLsbD k && m.mask.getLsbD k) = m.op.getLsbD k := by
  have hpattern {k : Nat} (hk : k < 32) : m.pattern.getLsbD k = m.op.getLsbD k := by
    rw [Mnemonic.pattern, BitVec.getLsbD_setWidth, decide_eq_true hk, Bool.true_and]
  constructor
  · intro h k hk
    rw [← BitVec.getLsbD_and, h, hpattern hk]
  · intro h
    apply BitVec.eq_of_getLsbD_eq
    intro k hk
    rw [BitVec.getLsbD_and, h k hk, hpattern hk]

/-- A row matches a word bit by bit: the op bits are those of the row, and the SBZ bits are zero. -/
theorem matches_iff_getLsbD (m : Mnemonic) (w : Word) :
    m.Matches w ↔ (∀ k < 8, w.getLsbD k = m.op.getLsbD k) ∧
      ∀ k < (sbzBits m.format).2, w.getLsbD ((sbzBits m.format).1 + k) = false := by
  have hlow := le_sbzBits_fst m.format
  have hhigh := sbzBits_le m.format
  rw [matches_iff_masked_bits]
  constructor
  · intro h
    refine ⟨fun k hk => ?_, fun k hk => ?_⟩
    · simpa [Mnemonic.mask, getLsbD_mask m.format k (by omega), hk] using h k (by omega)
    · have hbit := h ((sbzBits m.format).1 + k) (by omega)
      rw [BitVec.getLsbD_of_ge m.op _ (by omega)] at hbit
      simpa [Mnemonic.mask, getLsbD_mask m.format ((sbzBits m.format).1 + k) (by omega), hk] using hbit
  · rintro ⟨hop, hsbz⟩ k hk
    rw [Mnemonic.mask, getLsbD_mask m.format k hk]
    by_cases hk8 : k < 8
    · simp [hk8, hop k hk8]
    · rw [BitVec.getLsbD_of_ge m.op k (by omega)]
      by_cases hin : (sbzBits m.format).1 ≤ k ∧ k < (sbzBits m.format).1 + (sbzBits m.format).2
      · have hbit := hsbz (k - (sbzBits m.format).1) (by omega)
        rw [Nat.add_sub_cancel' hin.1] at hbit
        simp [hbit]
      · simp [hk8, hin]

/-- A part of a word is a value bit by bit. -/
theorem extractLsb'_eq_iff {n : Nat} (w : Word) (lo : Nat) (x : BitVec n) :
    w.extractLsb' lo n = x ↔ ∀ k < n, w.getLsbD (lo + k) = x.getLsbD k := by
  constructor
  · rintro rfl k hk
    simp [hk]
  · intro h
    apply BitVec.eq_of_getLsbD_eq
    intro k hk
    simp [hk, h k hk]

/-- A row matches a word exactly when the word has the row's opcode and zeros in its SBZ bits (R55, R59). -/
theorem matches_iff (m : Mnemonic) (w : Word) : m.Matches w ↔ fieldOp w = m.op ∧ sbzZero m.format w = true := by
  rw [matches_iff_getLsbD, sbzZero_eq_sbzBits, fieldOp, extractLsb'_eq_iff, extractLsb'_eq_iff]
  simp only [Nat.zero_add, BitVec.ofNat_eq_ofNat, BitVec.getLsbD_zero]

theorem mem_mnemonics (m : Mnemonic) : m ∈ mnemonics := by
  cases m <;> decide

/-- A word decodes exactly when a row matches it (R58). -/
theorem decodes_iff_matches (w : Word) : (∃ i, decode w = .ok i) ↔ ∃ m, m ∈ mnemonics ∧ m.Matches w := by
  simp only [matches_iff, decode_eq_ok_iff]
  constructor
  · rintro ⟨i, m, hop, hz, -⟩
    exact ⟨m, mem_mnemonics m, hop, hz⟩
  · rintro ⟨m, -, hop, hz⟩
    exact ⟨_, m, hop, hz, rfl⟩

/-- A word with a row's opcode that does not decode has a nonzero SBZ bit, and the decoder says so (R58). -/
theorem decode_eq_nonzeroSbz {w : Word} (hop : ¬ reservedOp (fieldOp w).toNat) (h : ¬ ∃ i, decode w = .ok i) :
    decode w = .error (.nonzeroSbz (fieldOp w)) := by
  obtain ⟨m, hm⟩ := (fieldOp_cases w).resolve_right hop
  have hz : ¬ sbzZero m.format w = true := fun hz => h ⟨_, (decode_eq_ok_iff w _).2 ⟨m, hm, hz, rfl⟩⟩
  rw [decode_of_op hm, checked, if_neg hz]

/-- A word that does not decode raises IllegalCommand when it is executed (R61, R112). -/
theorem executeWord_of_not_decodes {w : Word} (h : ¬ ∃ i, decode w = .ok i) (s : State) :
    executeWord w s = .next (raiseException .illegalCommand w s) := by
  cases hw : decode w with
  | ok i => exact absurd ⟨i, hw⟩ h
  | error e => simp [executeWord, hw]

theorem ofNat_toNat_eq_fieldOp (w : Word) : BitVec.ofNat 8 w.toNat = fieldOp w := by
  apply BitVec.eq_of_toNat_eq
  rw [fieldOp_toNat, BitVec.toNat_ofNat]

/-- Settles O3: a row matches exactly the words that decode; the others by their opcode. -/
theorem legalWordsAreTheTableRows : Obligations.LegalWordsAreTheTableRows := by
  unfold Obligations.LegalWordsAreTheTableRows
  intro w
  rw [← decodes_iff_matches, ← fieldOp_toNat, ofNat_toNat_eq_fieldOp]
  exact ⟨Iff.rfl, decode_of_reservedOp, decode_eq_nonzeroSbz, executeWord_of_not_decodes, rfl⟩

end Sys2Proof.Proofs
end

section
/-! The assembler's lines: the lines that pass the checks are the commands' lines (30_encoding.md R62). -/

namespace Sys2Proof.Proofs

open Sys2Proof.Machine Sys2Proof.Laws

/-- An operand of a column with its number (R57, R62). -/
def operandOf : OperandType → Nat → AsmOperand
  | .u => .u
  | .s => .s
  | .imm => .imm

/-- The width of the field an operand of a column stands in (R54, R56). -/
def operandWidth : OperandType → Nat
  | .u | .s => 4
  | .imm => 16

theorem exists_number_of_check {t : OperandType} {o : AsmOperand} (h : AsmOperand.check t o = .ok ()) :
    ∃ n, o = operandOf t n := by
  unfold AsmOperand.check at h
  split at h
  iterate 3 exact ⟨_, rfl⟩
  cases h

theorem check_operandOf (t : OperandType) (n : Nat) :
    AsmOperand.check t (operandOf t n) = .ok () ↔ n < 2 ^ operandWidth t := by
  cases t <;> simp [AsmOperand.check, operandOf, operandWidth]

/-- An operand that passes the check of a column has its letter and a number that fits its field. -/
theorem exists_field_of_check {t : OperandType} {o : AsmOperand} (h : AsmOperand.check t o = .ok ()) :
    ∃ x : BitVec (operandWidth t), o = operandOf t x.toNat := by
  obtain ⟨n, rfl⟩ := exists_number_of_check h
  have hn : n < 2 ^ operandWidth t := (check_operandOf t n).1 h
  exact ⟨BitVec.ofNat _ n, by rw [BitVec.toNat_ofNat, Nat.mod_eq_of_lt hn]⟩

theorem checkOperands_nil {os : List AsmOperand} (h : checkOperands [] os = .ok ()) : os = [] := by
  cases os with
  | nil => rfl
  | cons o os => cases h

theorem checkOperands_cons {t : OperandType} {ts : List OperandType} {os : List AsmOperand}
    (h : checkOperands (t :: ts) os = .ok ()) :
    ∃ (x : BitVec (operandWidth t)) (os' : List AsmOperand),
      os = operandOf t x.toNat :: os' ∧ checkOperands ts os' = .ok () := by
  cases os with
  | nil => cases h
  | cons o os' =>
    rw [checkOperands] at h
    split at h
    next ho =>
      obtain ⟨x, rfl⟩ := exists_field_of_check ho
      exact ⟨x, os', rfl, h⟩
    · cases h

/-! ### Lines and commands -/

theorem mnemonic_rowCommand (m : Mnemonic) (d a b : BitVec 4) (imm : Imm16) : (rowCommand m d a b imm).mnemonic = m := by
  cases m <;> rfl

/-- The operands of a row's command are a line's operands, so the line is a command's. -/
theorem exists_asm_of_operands (m : Mnemonic) (d a b : BitVec 4) (imm : Imm16) {os : List AsmOperand}
    (h : (rowCommand m d a b imm).operands = os) : ∃ i : Instr, i.asm = ⟨m, os⟩ :=
  ⟨rowCommand m d a b imm, by rw [Instr.asm, mnemonic_rowCommand, h]⟩

/-- A line that passes the checks is the line of a command, by the operand columns of its row's format. -/
theorem exists_asm_of_check {l : AsmLine} (h : l.check = .ok ()) : ∃ i : Instr, i.asm = l := by
  obtain ⟨m, os⟩ := l
  cases m with
  | shl | shr | mul | mulw | div | cmp | eqs | add | sub | cenc =>
    obtain ⟨d, _, rfl, hd⟩ := checkOperands_cons h
    obtain ⟨a, _, rfl, ha⟩ := checkOperands_cons hd
    obtain ⟨b, _, rfl, hb⟩ := checkOperands_cons ha
    obtain rfl := checkOperands_nil hb
    exact exists_asm_of_operands _ d a b 0 rfl
  | bitlen | todbl | movu | setu | getlo | not | cdec =>
    obtain ⟨d, _, rfl, hd⟩ := checkOperands_cons h
    obtain ⟨a, _, rfl, ha⟩ := checkOperands_cons hd
    obtain rfl := checkOperands_nil ha
    exact exists_asm_of_operands _ d a 0 0 rfl
  | shli | shri | mulwi =>
    obtain ⟨d, _, rfl, hd⟩ := checkOperands_cons h
    obtain ⟨a, _, rfl, ha⟩ := checkOperands_cons hd
    obtain ⟨imm, _, rfl, himm⟩ := checkOperands_cons ha
    obtain rfl := checkOperands_nil himm
    exact exists_asm_of_operands _ d a 0 imm rfl
  | sli | slih =>
    obtain ⟨d, _, rfl, hd⟩ := checkOperands_cons h
    obtain ⟨imm, _, rfl, himm⟩ := checkOperands_cons hd
    obtain rfl := checkOperands_nil himm
    exact exists_asm_of_operands _ d 0 0 imm rfl
  | rdfl =>
    obtain ⟨d, _, rfl, hd⟩ := checkOperands_cons h
    obtain rfl := checkOperands_nil hd
    exact exists_asm_of_operands _ d 0 0 0 rfl

theorem check_asm (i : Instr) : i.asm.check = .ok () := by
  have h : i.asm.check.toOption = some () := instr_wellFormed i
  cases hc : i.asm.check with
  | ok => rfl
  | error e => rw [hc] at h; cases h

/-- The operands of a command's own line fill the fields of its word. -/
theorem placeFields_operands (i : Instr) :
    placeFields i.mnemonic (i.operands.map operandNumber) = .ok (encode i) := by
  cases i <;>
    simp [placeFields, Instr.mnemonic, Mnemonic.format, Instr.operands, operandNumber, encode]

theorem assemble_asm (i : Instr) : assemble i.asm = .ok (encode i) := by
  rw [assemble, check_asm]
  exact placeFields_operands i

theorem check_of_assemble {l : AsmLine} {w : Word} (h : assemble l = .ok w) : l.check = .ok () := by
  cases hc : l.check with
  | ok => rfl
  | error e => simp [assemble, hc] at h

/-- Settles O5: a line that assembles passes the checks, so it is the line of a command, whose word it assembles to. -/
theorem assemblerWritesTheEncoding : Obligations.AssemblerWritesTheEncoding := by
  unfold Obligations.AssemblerWritesTheEncoding
  refine ⟨assemble_asm, fun l w h => ?_⟩
  obtain ⟨i, rfl⟩ := exists_asm_of_check (check_of_assemble h)
  rw [assemble_asm] at h
  cases h
  exact ⟨i, decode_encode i, rfl⟩

end Sys2Proof.Proofs
end

section
/-! The pseudo-instructions: a scalar loaded 16 bits at a time, and the other expansions (30_encoding.md R63). -/

namespace Sys2Proof.Proofs

open Sys2Proof.Machine Sys2Proof.Laws

/-! ### Executing a list of commands -/

theorem exec_sli (d : SReg) (imm : Imm16) (s : State) : exec (.sli d imm) s = .next (s.setS d (zextImm imm)) := rfl

theorem exec_slih (d : SReg) (imm : Imm16) (s : State) :
    exec (.slih d imm) s = .next (s.setS d (shiftIn (s.getS d) imm)) := rfl

theorem exec_setu (d : UReg) (a : SReg) (s : State) : exec (.setu d a) s = .next (s.setU d (zextScalar (s.getS a))) := rfl

theorem exec_sub (d a b : UReg) (s : State) : exec (.sub d a b) s = .next (s.setU d (subValue (s.getU a) (s.getU b))) := rfl

theorem execList_nil (s : State) : execList [] s = .next s := rfl

theorem execList_cons {i : Instr} {s t : State} (h : exec i s = .next t) (is : List Instr) :
    execList (i :: is) s = execList is t := by simp [execList, h]

theorem setS_setS (s : State) (d : SReg) (v w : Scalar) : (s.setS d v).setS d w = s.setS d w := by
  simp [State.setS]

/-- A load of a scalar: SLI with its high half-word, then SLIH with each lower one. -/
theorem execList_slih_cons (d : SReg) (v : Scalar) (imm : Imm16) (is : List Instr) (s : State) :
    execList (.slih d imm :: is) (s.setS d v) = execList is (s.setS d (shiftIn v imm)) := by
  rw [execList_cons (exec_slih d imm _), getS_setS_same, setS_setS]

/-! ### Half-words of a number -/

theorem zextImm_ofNat {n : Nat} (h : n < 2 ^ 16) : zextImm (BitVec.ofNat 16 n) = BitVec.ofNat 64 n := by
  apply BitVec.eq_of_toNat_eq
  simp only [zextImm, BitVec.toNat_setWidth, BitVec.toNat_ofNat]
  omega

theorem shiftIn_ofNat (n : Nat) : shiftIn (BitVec.ofNat 64 (n / 2 ^ 16)) (BitVec.ofNat 16 n) = BitVec.ofNat 64 n := by
  apply BitVec.eq_of_toNat_eq
  simp only [shiftIn, BitVec.toNat_ofNat]
  omega

theorem extractLsb'_eq_ofNat_div {w : Nat} (x : BitVec w) (k : Nat) :
    x.extractLsb' k 16 = BitVec.ofNat 16 (x.toNat / 2 ^ k) := by
  rw [← Nat.shiftRight_eq_div_pow]
  rfl

theorem execList_li32 (d : SReg) (imm : BitVec 32) (s : State) :
    execList (expand (.li32 d imm)) s = .next (s.setS d (BitVec.ofNat 64 imm.toNat)) := by
  have h := imm.isLt
  rw [expand, execList_cons (exec_sli d _ s), execList_slih_cons, execList_nil, extractLsb'_eq_ofNat_div,
    extractLsb'_eq_ofNat_div, zextImm_ofNat (by omega), pow_zero, Nat.div_one, shiftIn_ofNat]

theorem execList_li64 (d : SReg) (imm : Scalar) (s : State) : execList (expand (.li64 d imm)) s = .next (s.setS d imm) := by
  have h := imm.isLt
  have h48 : imm.toNat / 2 ^ 48 = imm.toNat / 2 ^ 32 / 2 ^ 16 := by rw [Nat.div_div_eq_div_mul, ← pow_add]
  have h32 : imm.toNat / 2 ^ 32 = imm.toNat / 2 ^ 16 / 2 ^ 16 := by rw [Nat.div_div_eq_div_mul, ← pow_add]
  rw [expand, execList_cons (exec_sli d _ s), execList_slih_cons, execList_slih_cons, execList_slih_cons, execList_nil]
  simp only [extractLsb'_eq_ofNat_div]
  rw [zextImm_ofNat (by omega), h48, shiftIn_ofNat, h32, shiftIn_ofNat, pow_zero, Nat.div_one, shiftIn_ofNat,
    BitVec.ofNat_toNat, BitVec.setWidth_eq]

theorem subValue_self (v : Value) : subValue v v = 0#256 := by simp [subValue]

/-- Settles O25: each expansion run command by command. -/
theorem pseudoInstructionsHaveTheirResults : Obligations.PseudoInstructionsHaveTheirResults := by
  unfold Obligations.PseudoInstructionsHaveTheirResults
  refine ⟨fun d imm s => ⟨_, rfl, execList_li32 d imm s, onlyS_setS d _ s⟩,
    fun d imm s => ⟨_, rfl, execList_li64 d imm s, onlyS_setS d imm s⟩, fun d s => ?_, fun d s => ?_, fun d x s => ?_⟩
  · refine ⟨s.setU d 0#256, rfl, ?_, onlyU_setU d _ s⟩
    rw [expand, execList_cons (exec_sub d d d s), subValue_self, execList_nil]
  · exact ⟨s.setS d 0#64, rfl, execList_cons (exec_sli d 0#16 s) [], onlyS_setS d _ s⟩
  · refine ⟨(s.setS x 1#64).setU d 1#256, rfl, ?_, getU_setU_same _ d _, getS_setS_same s x _, fun r hr => ?_,
      fun r hr => ?_, rfl⟩
    · rw [expand, execList_cons (exec_sli x 1#16 s), execList_cons (exec_setu d x _), getS_setS_same, execList_nil]
      rfl
    · rw [getU_setU, if_neg hr, getU_setS]
    · rw [getS_setU, getS_setS, if_neg hr]

end Sys2Proof.Proofs
end

section
/-! The command cycle: the acceptance of a command word and its completion (30_encoding.md R60, R61). -/

namespace Sys2Proof.Proofs

open Sys2Proof.Machine Sys2Proof.Laws

/-- A word that decodes is completed by its command, and the two closing lines follow (R61). -/
theorem complete_of_decode {w : Word} {i : Instr} {s t : State} (hw : decode w = .ok i) (hx : exec i s = .next t) :
    complete w s = .next (endCommand t) := by
  simp [complete, executeWord, hw, hx]

/-- Settles O35: the step is the completion of the pending word. -/
theorem stepRunsTheDecodedCommand : Obligations.StepRunsTheDecodedCommand := by
  unfold Obligations.StepRunsTheDecodedCommand
  intro s t w i hp hnow hw hx
  rw [step_completes s w hp ((completesNow_iff s).2 hnow)]
  exact complete_of_decode hw hx

/-- Settles O38: in an idle state the step is the write of CMD, discarded or accepted by ERR. -/
theorem cmdWriteIsAcceptedUnlessAnErrorIsRecorded : Obligations.CmdWriteIsAcceptedUnlessAnErrorIsRecorded := by
  unfold Obligations.CmdWriteIsAcceptedUnlessAnErrorIsRecorded
  intro s v rest hs hin
  rw [step_write_of_idle hs windowReg_cmd hin, writeReg]
  refine ⟨fun herr => ?_, fun herr => ?_⟩
  · rw [cmdWrite_discarded (s := { s with inputs := rest }) herr]
  · rw [cmdWrite_accepted (s := { s with inputs := rest }) herr]
    exact ⟨_, rfl, rfl, rfl, rfl⟩

end Sys2Proof.Proofs
end

section
/-! The command words of files 41 to 47 are the encoder's words: the fields `|` joins do not overlap (30_encoding.md R55). -/

namespace Sys2Proof.Proofs

open Sys2Proof.Machine Sys2Proof.Laws

/-- A field placed above the bits of a word is added to it. -/
theorem toNat_or_shiftLeft {w f : Word} {k : Nat} (hw : w.toNat < 2 ^ k) (hf : f.toNat * 2 ^ k < 2 ^ 32) :
    (w ||| f <<< k).toNat = w.toNat + f.toNat * 2 ^ k := by
  rw [BitVec.toNat_or, BitVec.toNat_shiftLeft, Nat.shiftLeft_eq, Nat.mod_eq_of_lt hf, ← Nat.shiftLeft_eq, Nat.or_comm,
    ← Nat.shiftLeft_add_eq_or_of_lt hw, Nat.add_comm]

/-- The four fields of a word, which formats RRR and RI place alike; `f` is the field at bit 16. -/
theorem toNat_fourFields (m : Mnemonic) (d a : BitVec 4) {f : Word} (hf : f.toNat < 2 ^ 16) :
    (m.op.setWidth 32 ||| f <<< 16 ||| a.setWidth 32 <<< 12 ||| d.setWidth 32 <<< 8).toNat =
      f.toNat * 2 ^ 16 + a.toNat * 2 ^ 12 + d.toNat * 2 ^ 8 + m.op.toNat := by
  have hop := op_lt m
  have hd := reg_lt d
  have ha := reg_lt a
  have hopW : (m.op.setWidth 32).toNat = m.op.toNat := BitVec.toNat_setWidth_of_le (by decide)
  have hdW : (d.setWidth 32).toNat = d.toNat := BitVec.toNat_setWidth_of_le (by decide)
  have haW : (a.setWidth 32).toNat = a.toNat := BitVec.toNat_setWidth_of_le (by decide)
  have hrd := toNat_or_shiftLeft (w := m.op.setWidth 32) (f := d.setWidth 32) (k := 8) (by omega) (by omega)
  have hra := toNat_or_shiftLeft (w := m.op.setWidth 32 ||| d.setWidth 32 <<< 8) (f := a.setWidth 32) (k := 12)
    (by omega) (by omega)
  rw [BitVec.or_assoc, BitVec.or_comm (a.setWidth 32 <<< 12), BitVec.or_assoc, BitVec.or_comm (f <<< 16),
    ← BitVec.or_assoc, ← BitVec.or_assoc, toNat_or_shiftLeft (by omega) (by omega)]
  omega

theorem wordDAB_eq_encodeRRR (m : Mnemonic) (d a b : BitVec 4) :
    wordDAB (m.op.setWidth 32) d a b = encodeRRR m d a b := by
  have hb := reg_lt b
  have hbW : (b.setWidth 32).toNat = b.toNat := BitVec.toNat_setWidth_of_le (by decide)
  apply BitVec.eq_of_toNat_eq
  rw [wordDAB, toNat_fourFields m d a (by omega), hbW, encodeRRR_toNat]

theorem wordDAI_eq_encodeRI (m : Mnemonic) (d a : BitVec 4) (imm : Imm16) :
    wordDAI (m.op.setWidth 32) d a imm = encodeRI m d a imm := by
  have himm := imm_lt imm
  have himmW : (imm.setWidth 32).toNat = imm.toNat := BitVec.toNat_setWidth_of_le (by decide)
  apply BitVec.eq_of_toNat_eq
  rw [wordDAI, toNat_fourFields m d a (by omega), himmW, encodeRI_toNat]

/-- A command whose word is its format RRR encoding is read from the word its rule writes. -/
theorem decode_wordDAB {i : Instr} {m : Mnemonic} {d a b : BitVec 4} (h : encode i = encodeRRR m d a b) :
    decode (wordDAB (m.op.setWidth 32) d a b) = .ok i := by
  rw [wordDAB_eq_encodeRRR, ← h, decode_encode]

/-- A command whose word is its format RI encoding is read from the word its rule writes. -/
theorem decode_wordDAI {i : Instr} {m : Mnemonic} {d a : BitVec 4} {imm : Imm16} (h : encode i = encodeRI m d a imm) :
    decode (wordDAI (m.op.setWidth 32) d a imm) = .ok i := by
  rw [wordDAI_eq_encodeRI, ← h, decode_encode]

end Sys2Proof.Proofs
end

section
/-! The shifts: their laws, and the four commands that shift (41_shift.md). -/

namespace Sys2Proof.Proofs

open Sys2Proof.Machine Sys2Proof.Laws

/-! ### ShiftLeft and ShiftRight (R64, R65) -/

theorem shiftLeft_eq_ofNat (a : Value) (n : Nat) : shiftLeft a n = BitVec.ofNat 256 (a.toNat * 2 ^ n) := by
  apply BitVec.eq_of_toNat_eq
  rw [shiftLeft_toNat, BitVec.toNat_ofNat]

theorem shiftRight_eq_ofNat (a : Value) (n : Nat) : shiftRight a n = BitVec.ofNat 256 (a.toNat / 2 ^ n) := by
  rw [← shiftRight_toNat, BitVec.ofNat_toNat, BitVec.setWidth_eq]

/-- The modulus splits into the factor shifted in and the range of the bits that survive. -/
theorem toNat_shiftRight_shiftLeft (a : Value) {s : Nat} (hs : s ≤ 256) :
    (shiftRight (shiftLeft a s) s).toNat = a.toNat % 2 ^ (256 - s) := by
  have hsplit : 2 ^ 256 = 2 ^ (256 - s) * 2 ^ s := by rw [← pow_add, Nat.sub_add_cancel hs]
  rw [shiftRight_toNat, shiftLeft_toNat, hsplit, Nat.mul_mod_mul_right, Nat.mul_div_cancel _ (by positivity)]

/-- The quotient times the divisor is the value less the remainder, so nothing is lost at the top. -/
theorem toNat_shiftLeft_shiftRight (a : Value) (s : Nat) :
    (shiftLeft (shiftRight a s) s).toNat = a.toNat - a.toNat % 2 ^ s := by
  have hmul : a.toNat / 2 ^ s * 2 ^ s = a.toNat - a.toNat % 2 ^ s := Nat.div_mul_self_eq_mod_sub_self
  rw [shiftLeft_toNat, shiftRight_toNat, hmul]
  exact Nat.mod_eq_of_lt (lt_of_le_of_lt (Nat.sub_le _ _) a.isLt)

theorem shiftLeft_shiftLeft (a : Value) (n m : Nat) : shiftLeft (shiftLeft a n) m = shiftLeft a (n + m) := by
  apply BitVec.eq_of_toNat_eq
  rw [shiftLeft_toNat, shiftLeft_toNat, shiftLeft_toNat, Nat.mod_mul_mod, Nat.mul_assoc, pow_add]

theorem shiftRight_shiftRight (a : Value) (n m : Nat) : shiftRight (shiftRight a n) m = shiftRight a (n + m) := by
  apply BitVec.eq_of_toNat_eq
  rw [shiftRight_toNat, shiftRight_toNat, shiftRight_toNat, Nat.div_div_eq_div_mul, pow_add]

theorem shiftLeft_zero (a : Value) : shiftLeft a 0 = a := by simp [shiftLeft_eq_ofNat]

theorem shiftRight_zero (a : Value) : shiftRight a 0 = a := by simp [shiftRight_eq_ofNat]

/-- Settles O30: each law as a fact about multiplication, division and remainder by powers of two. -/
theorem shiftLaws : Obligations.ShiftLaws := by
  unfold Obligations.ShiftLaws
  exact ⟨fun a s hs => ⟨toNat_shiftRight_shiftLeft a hs.le, toNat_shiftLeft_shiftRight a s⟩,
    fun a n m => ⟨shiftLeft_shiftLeft a n m, shiftRight_shiftRight a n m⟩,
    fun a => ⟨shiftLeft_zero a, shiftRight_zero a⟩⟩

/-! ### SHL, SHR, SHLI and SHRI (R66 to R70) -/

theorem exec_shl (d a : UReg) (b : SReg) (s : State) :
    exec (.shl d a b) s = .next (s.setU d (shiftLeft (s.getU a) (s.getS b).toNat)) := rfl

theorem exec_shr (d a : UReg) (b : SReg) (s : State) :
    exec (.shr d a b) s = .next (s.setU d (shiftRight (s.getU a) (s.getS b).toNat)) := rfl

theorem exec_shli (d a : UReg) (imm : Imm16) (s : State) :
    exec (.shli d a imm) s = .next (s.setU d (shiftLeft (s.getU a) imm.toNat)) := rfl

theorem exec_shri (d a : UReg) (imm : Imm16) (s : State) :
    exec (.shri d a imm) s = .next (s.setU d (shiftRight (s.getU a) imm.toNat)) := rfl

/-- A command whose effect is one write of Ud completes with exactly that change. -/
theorem exists_onlyU_of_exec {i : Instr} {s : State} {d : UReg} {v w : Value} (h : exec i s = .next (s.setU d v))
    (hv : v = w) : ∃ t, exec i s = .next t ∧ OnlyU d w s t :=
  ⟨s.setU d v, h, hv ▸ onlyU_setU d v s⟩

/-- Settles O6: the words are the encoder's, and each command writes ShiftLeft of its operands. -/
theorem shiftLeftCommandsWriteTheShiftedValue : Obligations.ShiftLeftCommandsWriteTheShiftedValue := by
  unfold Obligations.ShiftLeftCommandsWriteTheShiftedValue
  refine ⟨fun d a b => ?_, fun d a imm => ?_, fun d a b s => ?_, fun d a imm s => ?_⟩
  · exact decode_wordDAB (m := .shl) rfl
  · exact decode_wordDAI (m := .shli) rfl
  · exact exists_onlyU_of_exec (exec_shl d a b s) (shiftLeft_eq_ofNat _ _)
  · exact exists_onlyU_of_exec (exec_shli d a imm s) (shiftLeft_eq_ofNat _ _)

/-- Settles O7: the words are the encoder's, and each command writes ShiftRight of its operands. -/
theorem shiftRightCommandsWriteTheShiftedValue : Obligations.ShiftRightCommandsWriteTheShiftedValue := by
  unfold Obligations.ShiftRightCommandsWriteTheShiftedValue
  refine ⟨fun d a b => ?_, fun d a imm => ?_, fun d a b s => ?_, fun d a imm s => ?_⟩
  · exact decode_wordDAB (m := .shr) rfl
  · exact decode_wordDAI (m := .shri) rfl
  · exact exists_onlyU_of_exec (exec_shr d a b s) (shiftRight_eq_ofNat _ _)
  · exact exists_onlyU_of_exec (exec_shri d a imm s) (shiftRight_eq_ofNat _ _)

end Sys2Proof.Proofs
end

section
/-! The multiply functions: their laws, and the three commands that multiply (42_multiply.md). -/

namespace Sys2Proof.Proofs

open Sys2Proof.Machine Sys2Proof.Laws

/-! ### Mul and MulWord in the ring of 256-bit words (R71, R73) -/

theorem mul_eq_mul (a b : Value) : mul a b = a * b := by
  apply BitVec.eq_of_toNat_eq
  rw [mul, BitVec.toNat_ofNat, BitVec.toNat_mul]

theorem addValue_eq_add (a b : Value) : addValue a b = a + b := by
  apply BitVec.eq_of_toNat_eq
  rw [addValue, BitVec.toNat_ofNat, BitVec.toNat_add]

theorem toNat_setWidth_word (w : Word) : (w.setWidth 256).toNat = w.toNat :=
  BitVec.toNat_setWidth_of_le (by decide)

theorem mulWord_eq_mul (a : Value) (w : Word) : mulWord a w = mul a (w.setWidth 256) := by
  rw [mulWord, mul, toNat_setWidth_word]

/-- Settles O27: Mul and Add are the ring operations modulo 2^256. -/
theorem multiplyLaws : Obligations.MultiplyLaws := by
  unfold Obligations.MultiplyLaws
  simp only [mulWord_eq_mul, mul_eq_mul, addValue_eq_add]
  refine ⟨BitVec.mul_comm, BitVec.mul_assoc, fun a b c => BitVec.mul_add, fun a => BitVec.mul_zero, BitVec.mul_one, ?_, ?_⟩
  · decide
  · exact fun a w => by rw [BitVec.ofNat_toNat]

/-! ### MUL, MULW and MULWI (R74 to R76) -/

theorem exec_mul (d a b : UReg) (s : State) : exec (.mul d a b) s = .next (s.setU d (mul (s.getU a) (s.getU b))) := rfl

theorem exec_mulw (d a : UReg) (b : SReg) (s : State) :
    exec (.mulw d a b) s = .next (s.setU d (mulWord (s.getU a) (wordOperand b s))) := rfl

theorem exec_mulwi (d a : UReg) (imm : Imm16) (s : State) :
    exec (.mulwi d a imm) s = .next (s.setU d (mulWord (s.getU a) (wordImm imm))) := rfl

theorem wordOperand_toNat (b : SReg) (s : State) : (wordOperand b s).toNat = (s.getS b).toNat % 2 ^ 32 :=
  lowHalf_toNat (s.getS b)

theorem wordImm_toNat (imm : Imm16) : (wordImm imm).toNat = imm.toNat :=
  BitVec.toNat_setWidth_of_le (by decide)

/-- Settles O8: the words are the encoder's, and each command writes the product of its operands. -/
theorem multiplyCommandsWriteTheProduct : Obligations.MultiplyCommandsWriteTheProduct := by
  unfold Obligations.MultiplyCommandsWriteTheProduct
  refine ⟨fun d a b => ?_, fun d a b => ?_, fun d a imm => ?_, fun d a b s => ?_, fun d a b s => ?_, fun d a imm s => ?_⟩
  · exact decode_wordDAB (m := .mul) rfl
  · exact decode_wordDAB (m := .mulw) rfl
  · exact decode_wordDAI (m := .mulwi) rfl
  · exact exists_onlyU_of_exec (exec_mul d a b s) (mul_eq_mul _ _)
  · exact exists_onlyU_of_exec (exec_mulw d a b s) (by rw [mulWord, wordOperand_toNat])
  · exact exists_onlyU_of_exec (exec_mulwi d a imm s) (by rw [mulWord, wordImm_toNat])

end Sys2Proof.Proofs
end

section
/-! The schoolbook algorithm (42_multiply.md R72). With n result words from the present index on, these
stand for a number modulo 2^(32n): a row adds one partial product to it, and the loop adds them all. -/

namespace Sys2Proof.Proofs

open Sys2Proof.Machine Sys2Proof.Laws

/-! ### Lists of words as numbers -/

@[simp] theorem sumLimbs_nil : sumLimbs [] = 0 := rfl

@[simp] theorem sumLimbs_cons (r : Nat) (rs : List Nat) : sumLimbs (r :: rs) = r + 2 ^ 32 * sumLimbs rs := rfl

theorem sumLimbs_replicate_zero (n : Nat) : sumLimbs (List.replicate n 0) = 0 := by
  induction n with
  | zero => rfl
  | succ n ih => rw [List.replicate_succ, sumLimbs_cons, ih, Nat.mul_zero]

/-- The lowest `n` words of a number stand for its remainder modulo 2^(32n). -/
theorem sumLimbs_words (n x : Nat) :
    sumLimbs ((List.range n).map fun j => x / 2 ^ (32 * j) % 2 ^ 32) = x % 2 ^ (32 * n) := by
  induction n generalizing x with
  | zero => simp [Nat.mod_one]
  | succ n ih =>
    have hword (j : Nat) : x / 2 ^ (32 * (j + 1)) = x / 2 ^ 32 / 2 ^ (32 * j) := by
      rw [two_pow_next_word, Nat.mul_comm, Nat.div_div_eq_div_mul]
    have hrest := ih (x / 2 ^ 32)
    simp only [← hword] at hrest
    rw [List.range_succ_eq_map, List.map_cons, List.map_map, sumLimbs_cons]
    simp only [Function.comp_def, Nat.succ_eq_add_one, hrest]
    rw [two_pow_next_word, Nat.mul_comm (2 ^ (32 * n)), Nat.mod_mul, Nat.mul_zero, pow_zero, Nat.div_one]

theorem sumLimbs_limbsOf (v : Value) : sumLimbs (limbsOf v) = v.toNat := by
  simp only [limbsOf, limb_toNat, sumLimbs_words]
  exact Nat.mod_eq_of_lt v.isLt

@[simp] theorem length_limbsOf (v : Value) : (limbsOf v).length = 8 := by simp [limbsOf]

/-! ### The two loops -/

@[simp] theorem schoolbookRow_nil (aj c : Nat) (bs : List Nat) : schoolbookRow aj c [] bs = [] := rfl

@[simp] theorem schoolbookRow_cons (aj c r b : Nat) (rs bs : List Nat) :
    schoolbookRow aj c (r :: rs) (b :: bs) =
      (c + r + aj * b) % 2 ^ 32 :: schoolbookRow aj ((c + r + aj * b) / 2 ^ 32) rs bs := rfl

theorem schoolbookLoop_cons {aj r : Nat} {bs rs rest : List Nat} (h : schoolbookRow aj 0 rs bs = r :: rest) (as : List Nat) :
    schoolbookLoop (aj :: as) bs rs = r :: schoolbookLoop as bs rest := by rw [schoolbookLoop, h]

theorem length_schoolbookRow (aj c : Nat) (rs bs : List Nat) : (schoolbookRow aj c rs bs).length = rs.length := by
  induction rs generalizing c bs with
  | nil => rfl
  | cons r rs ih =>
    cases bs with
    | nil => rfl
    | cons b bs => rw [schoolbookRow_cons, List.length_cons, List.length_cons, ih]

/-- A congruence between the words above the lowest one, with that word put back below both sides. -/
theorem modEq_next_word {x y n : Nat} (r : Nat) (h : x ≡ y [MOD 2 ^ (32 * n)]) :
    r + 2 ^ 32 * x ≡ r + 2 ^ 32 * y [MOD 2 ^ (32 * (n + 1))] := by
  rw [two_pow_next_word, Nat.mul_comm (2 ^ (32 * n))]
  exact (h.mul_left' (2 ^ 32)).add_left r

/-- A row adds the carry and the product of its word of a with b; a carry out of the last word is dropped. -/
theorem sumLimbs_schoolbookRow (aj c : Nat) {rs bs : List Nat} (hlen : rs.length ≤ bs.length) :
    sumLimbs (schoolbookRow aj c rs bs) ≡ c + sumLimbs rs + aj * sumLimbs bs [MOD 2 ^ (32 * rs.length)] := by
  induction rs generalizing c bs with
  | nil => exact Nat.modEq_one
  | cons r rs ih =>
    cases bs with
    | nil => simp at hlen
    | cons b bs =>
      have hstep := ih ((c + r + aj * b) / 2 ^ 32) (Nat.le_of_succ_le_succ hlen)
      have hnumber : (c + r + aj * b) % 2 ^ 32 + 2 ^ 32 * ((c + r + aj * b) / 2 ^ 32 + sumLimbs rs + aj * sumLimbs bs) =
          c + sumLimbs (r :: rs) + aj * sumLimbs (b :: bs) := by
        rw [sumLimbs_cons, sumLimbs_cons]
        linear_combination Nat.mod_add_div (c + r + aj * b) (2 ^ 32)
      rw [schoolbookRow_cons, sumLimbs_cons, ← hnumber]
      exact modEq_next_word _ hstep

/-- The loop adds the product of the words of a that are left with b. -/
theorem sumLimbs_schoolbookLoop (as : List Nat) {bs rs : List Nat} (hlen : rs.length ≤ bs.length) :
    sumLimbs (schoolbookLoop as bs rs) ≡ sumLimbs rs + sumLimbs as * sumLimbs bs [MOD 2 ^ (32 * rs.length)] := by
  induction as generalizing rs with
  | nil => simp [schoolbookLoop, Nat.ModEq.refl]
  | cons aj as ih =>
    have hlength := length_schoolbookRow aj 0 rs bs
    have hrow := sumLimbs_schoolbookRow aj 0 hlen
    rcases hwords : schoolbookRow aj 0 rs bs with _ | ⟨r, rest⟩
    · have hempty : rs.length = 0 := by rw [← hlength, hwords, List.length_nil]
      rw [hempty]
      exact Nat.modEq_one
    · rw [hwords, List.length_cons] at hlength
      rw [hwords, ← hlength, sumLimbs_cons] at hrow
      rw [schoolbookLoop_cons hwords, sumLimbs_cons, ← hlength]
      calc r + 2 ^ 32 * sumLimbs (schoolbookLoop as bs rest)
        _ ≡ r + 2 ^ 32 * (sumLimbs rest + sumLimbs as * sumLimbs bs) [MOD 2 ^ (32 * (rest.length + 1))] :=
          modEq_next_word r (ih (by omega))
        _ = (r + 2 ^ 32 * sumLimbs rest) + 2 ^ 32 * sumLimbs as * sumLimbs bs := by ring
        _ ≡ (0 + sumLimbs rs + aj * sumLimbs bs) + 2 ^ 32 * sumLimbs as * sumLimbs bs [MOD 2 ^ (32 * (rest.length + 1))] :=
          hrow.add_right _
        _ = sumLimbs rs + sumLimbs (aj :: as) * sumLimbs bs := by rw [sumLimbs_cons]; ring

theorem schoolbookMul_eq_mul (a b : Value) : schoolbookMul a b = mul a b := by
  have hloop := sumLimbs_schoolbookLoop (limbsOf a) (bs := limbsOf b) (rs := List.replicate 8 0) (by simp)
  rw [sumLimbs_replicate_zero, sumLimbs_limbsOf, sumLimbs_limbsOf, List.length_replicate, Nat.zero_add] at hloop
  apply BitVec.eq_of_toNat_eq
  rw [schoolbookMul, mul, BitVec.toNat_ofNat, BitVec.toNat_ofNat]
  exact hloop

/-- Settles O26: the eight result words hold the product modulo 2^256, by induction on the rows and on the words of a row. -/
theorem schoolbookComputesTheTruncatedProduct : Obligations.SchoolbookComputesTheTruncatedProduct := by
  unfold Obligations.SchoolbookComputesTheTruncatedProduct
  exact ⟨schoolbookMul_eq_mul, fun a w => by rw [schoolbookMul_eq_mul, mulWord_eq_mul]⟩

end Sys2Proof.Proofs
end

section
/-! The bit length (44_compare.md R83), found word by word and bit by bit, is the bit length `Nat.size` of the number. -/

namespace Sys2Proof.Proofs

open Sys2Proof.Machine Sys2Proof.Laws

/-- Above the low `k` bits only the bit length of the high part counts. -/
theorem size_add_two_pow_mul {k r x : Nat} (hr : r < 2 ^ k) (hx : x ≠ 0) : (r + 2 ^ k * x).size = k + x.size := by
  obtain ⟨m, hm⟩ := Nat.exists_eq_succ_of_ne_zero (mt Nat.size_eq_zero.1 hx)
  apply le_antisymm
  · rw [Nat.size_le, pow_add]
    calc r + 2 ^ k * x < 2 ^ k * (x + 1) := by rw [Nat.mul_add_one]; omega
      _ ≤ 2 ^ k * 2 ^ x.size := Nat.mul_le_mul_left _ x.lt_size_self
  · have hlow : 2 ^ m ≤ x := Nat.lt_size.1 (by omega)
    rw [hm, Nat.add_succ, Nat.succ_le_iff, Nat.lt_size, pow_add]
    exact le_add_left (Nat.mul_le_mul_left _ hlow)

theorem topBitBelow_eq_size (w : Word) (n : Nat) : topBitBelow w n = (w.toNat % 2 ^ n).size := by
  induction n with
  | zero => rw [pow_zero, Nat.mod_one]; rfl
  | succ t ih =>
    have hr : w.toNat % 2 ^ t < 2 ^ t := Nat.mod_lt _ (by positivity)
    rw [topBitBelow, pow_succ, Nat.mod_mul, ← Nat.toNat_testBit, BitVec.testBit_toNat, ih]
    cases w.getLsbD t with
    | false => rfl
    | true => exact (size_add_two_pow_mul hr one_ne_zero).symm

theorem bitLengthBelow_eq_size (a : Value) (p : Nat) : bitLengthBelow a p = (a.toNat % 2 ^ (32 * p)).size := by
  induction p with
  | zero => rw [Nat.mul_zero, pow_zero, Nat.mod_one]; rfl
  | succ p ih =>
    have hr : a.toNat % 2 ^ (32 * p) < 2 ^ (32 * p) := Nat.mod_lt _ (by positivity)
    rw [bitLengthBelow, two_pow_next_word, Nat.mod_mul, ← limb_toNat, ih, topBitBelow_eq_size,
      Nat.mod_eq_of_lt (limb a p).isLt]
    by_cases hzero : limb a p = 0#32
    · simp [hzero]
    · have hword : (limb a p).toNat ≠ 0 := fun h => hzero (BitVec.eq_of_toNat_eq h)
      rw [if_pos (bne_iff_ne.2 hzero), size_add_two_pow_mul hr hword]

theorem bitLength_eq_size (a : Value) : bitLength a = a.toNat.size := by
  rw [bitLength, bitLengthBelow_eq_size, Nat.mod_eq_of_lt a.isLt]

theorem bitLength_eq_zero_iff (a : Value) : bitLength a = 0 ↔ a = 0#256 := by
  rw [bitLength_eq_size, Nat.size_eq_zero]
  exact BitVec.toNat_inj (y := 0#256)

theorem lt_of_bitLength_lt {a b : Value} (h : bitLength a < bitLength b) : a.toNat < b.toNat := by
  rw [bitLength_eq_size, bitLength_eq_size] at h
  exact Nat.lt_of_not_le fun hle => h.not_ge (Nat.size_le_size hle)

end Sys2Proof.Proofs
end

section
/-! Division: the source's long division, the laws of Divide, and DIV with a nonzero divisor (43_divide.md). -/

namespace Sys2Proof.Proofs

open Sys2Proof.Machine Sys2Proof.Laws

/-! ### Divide (R78) -/

@[simp] theorem divide_zero (a : Value) : divide a 0#256 = none := if_pos rfl

theorem divide_of_ne_zero (a : Value) {b : Value} (hb : b ≠ 0#256) : divide a b = some (a / b) := by
  rw [divide, if_neg hb, BitVec.udiv_def]

theorem ne_zero_of_toNat_lt {a b : Value} (h : a.toNat < b.toNat) : b ≠ 0#256 := by
  rintro rfl
  exact absurd h (Nat.not_lt_zero _)

theorem toNat_pos_of_ne_zero {b : Value} (hb : b ≠ 0#256) : 0 < b.toNat :=
  Nat.pos_of_ne_zero fun h => hb (BitVec.eq_of_toNat_eq h)

theorem divide_of_lt {a b : Value} (h : a.toNat < b.toNat) : divide a b = some 0#256 := by
  rw [divide_of_ne_zero a (ne_zero_of_toNat_lt h), BitVec.udiv_def, Nat.div_eq_of_lt h]

theorem divide_self {a : Value} (ha : a ≠ 0#256) : divide a a = some 1#256 := by
  rw [divide_of_ne_zero a ha, BitVec.udiv_def, Nat.div_self (toNat_pos_of_ne_zero ha)]

/-- A quotient is delivered for a nonzero divisor only, and it is the floor quotient. -/
theorem divide_eq_some_iff {a b q : Value} : divide a b = some q ↔ b ≠ 0#256 ∧ q = a / b := by
  by_cases hb : b = 0#256
  · simp [hb]
  · simp [divide_of_ne_zero a hb, hb, eq_comm]

/-- Settles O29: each law from the quotient of natural numbers; a larger bit length makes a larger number. -/
theorem divideLaws : Obligations.DivideLaws := by
  unfold Obligations.DivideLaws
  refine ⟨fun a => ?_, fun a b h => divide_of_lt (lt_of_bitLength_lt h), fun a b h => divide_of_lt h,
    fun a ha => divide_self ha, fun b hb => ?_, fun a b q hq => ?_, fun a b h => ?_⟩
  · rw [divide_of_ne_zero a (by decide), BitVec.udiv_one]
  · rw [divide_of_ne_zero 0#256 hb, BitVec.zero_udiv]
  · obtain ⟨hb, rfl⟩ := divide_eq_some_iff.1 hq
    rw [BitVec.toNat_udiv, Nat.add_one_mul]
    exact ⟨Nat.div_mul_le_self _ _, Nat.lt_div_mul_add (toNat_pos_of_ne_zero hb)⟩
  · rw [(bitLength_eq_zero_iff b).1 h, divide_zero]

/-! ### The long division (R77) -/

/-- With `n` positions left, the shifted divisor `b * 2^n / 2` and a remaining dividend below `b * 2^n`, the loop adds the
remaining quotient. -/
theorem longDivisionLoop_eq (n : Nat) {b r : Nat} (q : Nat) (hr : r < b * 2 ^ n) :
    longDivisionLoop n (b * 2 ^ n / 2) r q = q + r / b := by
  have hb : 0 < b := Nat.pos_of_mul_pos_right (Nat.zero_lt_of_lt hr)
  induction n generalizing r q with
  | zero => rw [longDivisionLoop, Nat.div_eq_of_lt (by simpa using hr), Nat.add_zero]
  | succ n ih =>
    have hhalf : b * 2 ^ (n + 1) / 2 = b * 2 ^ n := by rw [pow_succ, ← Nat.mul_assoc, Nat.mul_div_cancel _ two_pos]
    rw [pow_succ, ← Nat.mul_assoc] at hr
    rw [longDivisionLoop, hhalf]
    split
    next hge =>
      have hquot : r / b = (r - b * 2 ^ n) / b + 2 ^ n := by
        rw [← Nat.add_mul_div_left _ _ hb, Nat.sub_add_cancel hge]
      rw [ih (q + 2 ^ n) (by omega), hquot]
      omega
    next hlt => exact ih q (Nat.lt_of_not_le hlt)

/-- The first shift aligns the top bits, so the dividend is below twice the shifted divisor. -/
theorem lt_mul_two_pow_of_size {a b : Nat} (hb : 0 < b) (h : b.size ≤ a.size) : a < b * 2 ^ (a.size - b.size + 1) := by
  have hpos := Nat.size_pos.2 hb
  have htop : 2 ^ (b.size - 1) ≤ b := Nat.lt_size.1 (by omega)
  calc a < 2 ^ a.size := a.lt_size_self
    _ = 2 ^ (b.size - 1) * 2 ^ (a.size - b.size + 1) := by rw [← pow_add]; congr 1; omega
    _ ≤ b * 2 ^ (a.size - b.size + 1) := Nat.mul_le_mul_right _ htop

theorem longDivision_eq_divide (a b : Value) : longDivision a b = divide a b := by
  unfold longDivision
  split
  next hzero => rw [(bitLength_eq_zero_iff b).1 hzero, divide_zero]
  next hzero =>
    have hb : b ≠ 0#256 := mt (bitLength_eq_zero_iff b).2 hzero
    split
    next hlong => rw [divide_of_lt (lt_of_bitLength_lt hlong)]
    next hlong =>
      rw [bitLength_eq_size, bitLength_eq_size, not_lt] at hlong
      have hlt := lt_mul_two_pow_of_size (toNat_pos_of_ne_zero hb) hlong
      have hloop := longDivisionLoop_eq _ 0 hlt
      rw [pow_succ, ← Nat.mul_assoc, Nat.mul_div_cancel _ two_pos, Nat.zero_add] at hloop
      simp only [bitLength_eq_size, hloop, divide_of_ne_zero a hb, BitVec.udiv_def]

/-- Settles O28: by the loop's invariant, from the shift that aligns the top bits of the operands. -/
theorem longDivisionIsTheFloorQuotient : Obligations.LongDivisionIsTheFloorQuotient := by
  unfold Obligations.LongDivisionIsTheFloorQuotient
  intro a b
  refine ⟨fun hb => ?_, fun hb => ?_, longDivision_eq_divide a b, bitLength_eq_zero_iff b⟩
  · rw [longDivision_eq_divide, divide_of_ne_zero a hb, BitVec.udiv_def]
  · rw [longDivision_eq_divide, hb, divide_zero]

/-! ### DIV (R80) -/

theorem exec_div_of_ne_zero (d a : UReg) {b : UReg} {s : State} (hb : s.getU b ≠ 0#256) :
    exec (.div d a b) s = .next (s.setU d (s.getU a / s.getU b)) := by
  simp only [exec, execDiv, divide_of_ne_zero _ hb]

/-- Settles O9: the word is the encoder's, and with a nonzero divisor DIV writes the quotient of its operands. -/
theorem divWritesTheFloorQuotient : Obligations.DivWritesTheFloorQuotient := by
  unfold Obligations.DivWritesTheFloorQuotient
  refine ⟨fun d a b => ?_, fun d a b s hb => ?_⟩
  · exact decode_wordDAB (m := .div) rfl
  · exact exists_onlyU_of_exec (exec_div_of_ne_zero d a hb) rfl

end Sys2Proof.Proofs
end

section
/-! The command words with two register fields are the encoder's words in format RR (30_encoding.md R55). -/

namespace Sys2Proof.Proofs

open Sys2Proof.Machine Sys2Proof.Laws

theorem wordDA_eq_wordDAB (p : Word) (d a : BitVec 4) : wordDA p d a = wordDAB p d a 0#4 := by
  simp [wordDA, wordDAB]

theorem encodeRRR_zero (m : Mnemonic) (d a : BitVec 4) : encodeRRR m d a 0#4 = encodeRR m d a := by
  apply BitVec.eq_of_toNat_eq
  rw [encodeRRR_toNat, encodeRR_toNat, BitVec.toNat_zero, Nat.zero_mul, Nat.zero_add]

/-- A command whose word is its format RR encoding is read from the word its rule writes. -/
theorem decode_wordDA {i : Instr} {m : Mnemonic} {d a : BitVec 4} (h : encode i = encodeRR m d a) :
    decode (wordDA (m.op.setWidth 32) d a) = .ok i := by
  rw [wordDA_eq_wordDAB, wordDAB_eq_encodeRRR, encodeRRR_zero, ← h, decode_encode]

end Sys2Proof.Proofs
end

section
/-! The compare functions, transcribed word by word, as statements about integers, and the three commands that compare
(44_compare.md). -/

namespace Sys2Proof.Proofs

open Sys2Proof.Machine Sys2Proof.Laws

/-- A command whose effect is one write of Sd completes with exactly that change. -/
theorem exists_onlyS_of_exec {i : Instr} {s : State} {d : SReg} {v w : Scalar} (h : exec i s = .next (s.setS d v))
    (hv : v = w) : ∃ t, exec i s = .next t ∧ OnlyS d w s t :=
  ⟨s.setS d v, h, hv ▸ onlyS_setS d v s⟩

/-! ### Compare (R81) -/

/-- Where the high parts of two numbers differ, they decide which number is below the other. -/
theorem add_two_pow_mul_lt {k r r' x y : Nat} (hr : r < 2 ^ k) (hxy : x < y) : r + 2 ^ k * x < r' + 2 ^ k * y :=
  calc r + 2 ^ k * x < 2 ^ k * (x + 1) := by rw [Nat.mul_add_one]; omega
    _ ≤ 2 ^ k * y := Nat.mul_le_mul_left _ hxy
    _ ≤ r' + 2 ^ k * y := Nat.le_add_left _ _

theorem compareBelow_succ_of_lt {a b : Value} {j : Nat} (h : limb a j < limb b j) : compareBelow a b (j + 1) = -1 :=
  if_pos h

theorem compareBelow_succ_of_gt {a b : Value} {j : Nat} (h : limb b j < limb a j) : compareBelow a b (j + 1) = 1 := by
  rw [compareBelow, if_neg (BitVec.lt_asymm h), if_pos h]

theorem compareBelow_succ_of_eq {a b : Value} {j : Nat} (h : limb a j = limb b j) :
    compareBelow a b (j + 1) = compareBelow a b j := by
  rw [compareBelow, h, if_neg (BitVec.lt_irrefl _), if_neg (BitVec.lt_irrefl _)]

/-- The words below index `j` compare as the numbers they stand for. -/
theorem compareBelow_eq_sign (a b : Value) (j : Nat) :
    compareBelow a b j = (((a.toNat % 2 ^ (32 * j) : Nat) : Int) - (b.toNat % 2 ^ (32 * j) : Nat)).sign := by
  induction j with
  | zero => simp [compareBelow, Nat.mod_one]
  | succ j ih =>
    have ha : a.toNat % 2 ^ (32 * j) < 2 ^ (32 * j) := Nat.mod_lt _ (by positivity)
    have hb : b.toNat % 2 ^ (32 * j) < 2 ^ (32 * j) := Nat.mod_lt _ (by positivity)
    rw [two_pow_next_word, Nat.mod_mul, Nat.mod_mul, ← limb_toNat, ← limb_toNat]
    rcases lt_trichotomy (limb a j).toNat (limb b j).toNat with hlt | heq | hgt
    · rw [compareBelow_succ_of_lt hlt, Int.sign_eq_neg_one_of_neg]
      exact Int.sub_neg_of_lt (Int.ofNat_lt.2 (add_two_pow_mul_lt ha hlt))
    · rw [compareBelow_succ_of_eq (BitVec.eq_of_toNat_eq heq), ih, heq]
      congr 1
      omega
    · rw [compareBelow_succ_of_gt hgt, Int.sign_eq_one_of_pos]
      exact Int.sub_pos_of_lt (Int.ofNat_lt.2 (add_two_pow_mul_lt hb hgt))

/-- Compare is the sign of the difference of the two unsigned integers. -/
theorem compareValues_eq_sign (a b : Value) : compareValues a b = ((a.toNat : Int) - b.toNat).sign := by
  rw [compareValues, compareBelow_eq_sign, Nat.mod_eq_of_lt a.isLt, Nat.mod_eq_of_lt b.isLt]

/-- The three scalars CMP can write, by the order of its operands (R84). -/
theorem sext64_compareValues (a b : Value) :
    sext64 (compareValues a b) =
      if a.toNat < b.toNat then 0xFFFFFFFFFFFFFFFF#64 else if a.toNat = b.toNat then 0#64 else 1#64 := by
  rw [compareValues_eq_sign]
  rcases lt_trichotomy a.toNat b.toNat with hlt | heq | hgt
  · rw [if_pos hlt, Int.sign_eq_neg_one_of_neg (by omega)]
    rfl
  · rw [if_neg heq.not_lt, if_pos heq, heq, Int.sub_self]
    rfl
  · rw [if_neg hgt.not_gt, if_neg hgt.ne', Int.sign_eq_one_of_pos (by omega)]
    rfl

theorem exec_cmp (d : SReg) (a b : UReg) (s : State) :
    exec (.cmp d a b) s = .next (s.setS d (sext64 (compareValues (s.getU a) (s.getU b)))) := rfl

/-- Settles O11: the word is the encoder's, and CMP writes the sign of the difference, by induction on the words compared. -/
theorem cmpComparesAsIntegers : Obligations.CmpComparesAsIntegers := by
  unfold Obligations.CmpComparesAsIntegers
  refine ⟨fun d a b => ?_, fun d a b s => ?_⟩
  · exact decode_wordDAB (m := .cmp) rfl
  · exact exists_onlyS_of_exec (exec_cmp d a b s) (sext64_compareValues _ _)

/-! ### EqualsSmall (R82) -/

/-- A value is determined by its eight words. -/
theorem eq_of_limb_eq {a b : Value} (h : ∀ j < 8, limb a j = limb b j) : a = b := by
  have hwords : limbsOf a = limbsOf b := List.map_congr_left fun j hj => by rw [h j (List.mem_range.1 hj)]
  apply BitVec.eq_of_toNat_eq
  rw [← sumLimbs_limbsOf, hwords, sumLimbs_limbsOf]

theorem zextScalar_toNat (v : Scalar) : (zextScalar v).toNat = v.toNat :=
  BitVec.toNat_setWidth_of_le (by decide)

theorem limb_zextScalar_zero (v : Scalar) : limb (zextScalar v) 0 = lowHalf v := by
  apply BitVec.eq_of_toNat_eq
  rw [limb_toNat, zextScalar_toNat, lowHalf_toNat, Nat.mul_zero, pow_zero, Nat.div_one]

theorem limb_zextScalar_one (v : Scalar) : limb (zextScalar v) 1 = highHalf v := by
  have hv := v.isLt
  apply BitVec.eq_of_toNat_eq
  rw [limb_toNat, zextScalar_toNat, highHalf_toNat]
  omega

theorem limb_zextScalar_of_two_le (v : Scalar) {j : Nat} (hj : 2 ≤ j) : limb (zextScalar v) j = 0#32 := by
  have hv : v.toNat < 2 ^ (32 * j) := v.isLt.trans_le (Nat.pow_le_pow_right two_pos (by omega))
  apply BitVec.eq_of_toNat_eq
  rw [limb_toNat, zextScalar_toNat, Nat.div_eq_of_lt hv]
  rfl

/-- EqualsSmall compares the two low words with the halves of the scalar and the six others with zero (R82). -/
theorem equalsSmall_iff_words (a : Value) (v : Scalar) :
    equalsSmall a v = true ↔
      (∀ j, 2 ≤ j ∧ j < 8 → limb a j = 0#32) ∧ limb a 0 = lowHalf v ∧ limb a 1 = highHalf v := by
  have hupper (j : Nat) : 2 ≤ j ∧ j < 8 ↔ j ∈ [2, 3, 4, 5, 6, 7] := (List.mem_range'_1 (n := 6)).symm
  simp only [hupper]
  simp [equalsSmall]

theorem equalsSmall_iff_eq_zextScalar (a : Value) (v : Scalar) : equalsSmall a v = true ↔ a = zextScalar v := by
  rw [equalsSmall_iff_words]
  constructor
  · rintro ⟨hupper, hlow, hhigh⟩
    refine eq_of_limb_eq fun j hj => ?_
    match j with
    | 0 => rw [hlow, limb_zextScalar_zero]
    | 1 => rw [hhigh, limb_zextScalar_one]
    | j + 2 => rw [hupper _ ⟨by omega, hj⟩, limb_zextScalar_of_two_le v (by omega)]
  · rintro rfl
    exact ⟨fun j hj => limb_zextScalar_of_two_le v hj.1, limb_zextScalar_zero v, limb_zextScalar_one v⟩

theorem equalsSmall_iff (a : Value) (v : Scalar) : equalsSmall a v = true ↔ a.toNat = v.toNat := by
  rw [equalsSmall_iff_eq_zextScalar, ← BitVec.toNat_inj, zextScalar_toNat]

theorem exec_eqs (d : SReg) (a : UReg) (b : SReg) (s : State) :
    exec (.eqs d a b) s = .next (s.setS d (zextBit (equalsSmall (s.getU a) (s.getS b)))) := rfl

/-- Settles O12: the word is the encoder's, and EQS writes whether the value is the zero-extended scalar, word by word. -/
theorem eqsTestsEqualityWithAScalar : Obligations.EqsTestsEqualityWithAScalar := by
  unfold Obligations.EqsTestsEqualityWithAScalar
  refine ⟨fun d a b => ?_, fun d a b s => ?_⟩
  · exact decode_wordDAB (m := .eqs) rfl
  · exact exists_onlyS_of_exec (exec_eqs d a b s) (by simp only [zextBit, equalsSmall_iff])

/-! ### BitLength (R83) -/

theorem bitLength_le_iff (a : Value) (n : Nat) : bitLength a ≤ n ↔ a.toNat < 2 ^ n := by
  rw [bitLength_eq_size, Nat.size_le]

theorem exec_bitlen (d : SReg) (a : UReg) (s : State) :
    exec (.bitlen d a) s = .next (s.setS d (BitVec.ofNat 64 (bitLength (s.getU a)))) := rfl

/-- Settles O13: the word is the encoder's, and the bit length is the least exponent of a power of two above the value. -/
theorem bitlenIsTheLeastBound : Obligations.BitlenIsTheLeastBound := by
  unfold Obligations.BitlenIsTheLeastBound
  refine ⟨fun d a => ?_, fun d a s => ?_⟩
  · exact decode_wordDA (m := .bitlen) rfl
  · exact ⟨_, bitLength (s.getU a), exec_bitlen d a s, onlyS_setS d _ s, (bitLength_le_iff _ _).2 (s.getU a).isLt,
      (bitLength_le_iff _ _).1 le_rfl, fun m hm => (bitLength_le_iff _ m).2 hm⟩

end Sys2Proof.Proofs
end

section
/-! RoundNearestEven, the binary64 pattern of a natural number, ToDouble and TODBL (45_convert.md R87 to R89). -/

namespace Sys2Proof.Proofs

open Sys2Proof.Machine Sys2Proof.Laws

/-! ### RoundNearestEven (R87) -/

theorem roundNearestEven_of_lt {n : Nat} (h : n < 2 ^ 53) : roundNearestEven n = n := if_pos h

/-- From 2^53 on a number lies in a gap of the binary64 values, from `q * 2^k` to `(q + 1) * 2^k`, at the distance `r` from
its lower end; the half of the gap it lies in decides the end it is rounded to. -/
theorem roundNearestEven_in_gap {n : Nat} (h : 2 ^ 53 ≤ n) :
    ∃ q k r, n = q * 2 ^ k + r ∧ r < 2 ^ k ∧ 2 ^ 52 ≤ q ∧ q < 2 ^ 53 ∧
      (2 * r < 2 ^ k ∧ roundNearestEven n = q * 2 ^ k ∨ 2 ^ k < 2 * r ∧ roundNearestEven n = (q + 1) * 2 ^ k ∨
        2 * r = 2 ^ k ∧ roundNearestEven n = (q + q % 2) * 2 ^ k) := by
  have hn : n ≠ 0 := by omega
  have hlog : n.log2 = n.log2 - 52 + 52 := by have := (Nat.le_log2 hn).2 h; omega
  have hlow : 2 ^ 52 * 2 ^ (n.log2 - 52) ≤ n := by
    rw [← pow_add, Nat.add_comm, ← hlog]
    exact Nat.log2_self_le hn
  have hhigh : n < 2 ^ 53 * 2 ^ (n.log2 - 52) := by
    rw [← pow_add, Nat.add_comm, Nat.add_succ, ← hlog]
    exact Nat.lt_log2_self
  refine ⟨n / 2 ^ (n.log2 - 52), n.log2 - 52, n % 2 ^ (n.log2 - 52), (Nat.div_add_mod' ..).symm,
    Nat.mod_lt _ (by positivity), (Nat.le_div_iff_mul_le (by positivity)).2 hlow,
    Nat.div_lt_of_lt_mul (by rwa [Nat.mul_comm]), ?_⟩
  rw [roundNearestEven, if_neg h.not_gt]
  rcases lt_trichotomy (2 * (n % 2 ^ (n.log2 - 52))) (2 ^ (n.log2 - 52)) with hlt | heq | hgt
  · exact .inl ⟨hlt, if_pos hlt⟩
  · exact .inr (.inr ⟨heq, by rw [if_neg heq.not_lt, if_neg heq.not_gt]⟩)
  · exact .inr (.inl ⟨hgt, by rw [if_neg hgt.not_gt, if_pos hgt]⟩)

theorem isBinary64_mul_two_pow {q : Nat} (h : q ≤ 2 ^ 53) (k : Nat) : IsBinary64 (q * 2 ^ k) := by
  obtain hlt | rfl := h.lt_or_eq
  · exact ⟨q, k, hlt, rfl⟩
  · exact ⟨1, 53 + k, by decide, by rw [pow_add, Nat.one_mul]⟩

/-- No binary64 value lies inside the gap above a value with 53 significant bits: with an exponent of at least `k` it is a
multiple of `2^k`, and with a smaller one it is at most `2^52 * 2^k`. -/
theorem outside_gap_of_isBinary64 {m : Nat} (hm : IsBinary64 m) {q : Nat} (hq : 2 ^ 52 ≤ q) (k : Nat) :
    m ≤ q * 2 ^ k ∨ (q + 1) * 2 ^ k ≤ m := by
  obtain ⟨p, j, hp, rfl⟩ := hm
  rcases Nat.lt_or_ge j k with hjk | hkj
  · left
    calc p * 2 ^ j ≤ (2 ^ 52 * 2) * 2 ^ j := Nat.mul_le_mul_right _ hp.le
      _ = 2 ^ 52 * 2 ^ (j + 1) := by rw [pow_succ']; ring
      _ ≤ q * 2 ^ k := Nat.mul_le_mul hq (Nat.pow_le_pow_right two_pos hjk)
  · obtain ⟨i, rfl⟩ := Nat.exists_eq_add_of_le' hkj
    rw [pow_add, ← Nat.mul_assoc]
    exact (Nat.lt_or_ge q (p * 2 ^ i)).symm.imp (Nat.mul_le_mul_right _) (Nat.mul_le_mul_right _)

/-- An even end of a gap has an even last fraction bit; one past 53 bits is a power of two. -/
theorem even_last_fraction_bit {q : Nat} (hlow : 2 ^ 52 ≤ q) (hhigh : q ≤ 2 ^ 53) (heven : q % 2 = 0) (k : Nat) :
    ∃ p j, q * 2 ^ k = p * 2 ^ j ∧ 2 ^ 52 ≤ p ∧ p < 2 ^ 53 ∧ p % 2 = 0 := by
  obtain hlt | rfl := hhigh.lt_or_eq
  · exact ⟨q, k, rfl, hlow, hlt, heven⟩
  · exact ⟨2 ^ 52, k + 1, by rw [pow_succ']; ring, le_rfl, by decide, by decide⟩

/-- A binary64 value that is nearer than every other one is the nearest, with no tie to break. -/
theorem nearestEven_of_nearer {n r : Nat} (hr : IsBinary64 r)
    (hnearer : ∀ m, IsBinary64 m → m ≠ r → distance n r < distance n m) : NearestEven n r := by
  refine ⟨hr, fun m hm => ?_, fun m hm hne heq => absurd heq (hnearer m hm hne).ne'⟩
  obtain rfl | hne := eq_or_ne m r
  · exact le_rfl
  · exact (hnearer m hm hne).le

/-- Rounding to a natural number is rounding to nearest, ties to even: no binary64 value lies inside the gap around a number,
so one of its two ends is the nearest, and only halfway between them both are as near. -/
theorem nearestEven_roundNearestEven (n : Nat) : NearestEven n (roundNearestEven n) := by
  rcases Nat.lt_or_ge n (2 ^ 53) with hsmall | hlarge
  · rw [roundNearestEven_of_lt hsmall]
    refine nearestEven_of_nearer ⟨n, 0, hsmall, (Nat.mul_one n).symm⟩ fun m _ hne => ?_
    unfold distance
    omega
  · obtain ⟨q, k, r, hn, hr, hlow, hhigh, hround⟩ := roundNearestEven_in_gap hlarge
    have hgap (m : Nat) (hm : IsBinary64 m) : m ≤ q * 2 ^ k ∨ q * 2 ^ k + 2 ^ k ≤ m := by
      rw [← Nat.add_one_mul]
      exact outside_gap_of_isBinary64 hm hlow k
    obtain ⟨hhalf, heq⟩ | ⟨hhalf, heq⟩ | ⟨hhalf, heq⟩ := hround
    · rw [heq]
      refine nearestEven_of_nearer (isBinary64_mul_two_pow hhigh.le k) fun m hm hne => ?_
      have := hgap m hm
      unfold distance
      omega
    · rw [heq]
      refine nearestEven_of_nearer (isBinary64_mul_two_pow hhigh k) fun m hm hne => ?_
      have := hgap m hm
      rw [Nat.add_one_mul] at hne ⊢
      unfold distance
      omega
    · rw [heq]
      refine ⟨isBinary64_mul_two_pow (by omega) k, fun m hm => ?_,
        fun m _ _ _ => even_last_fraction_bit (by omega) (by omega) (by omega) k⟩
      have := hgap m hm
      unfold distance
      rcases Nat.mod_two_eq_zero_or_one q with heven | hodd
      · rw [heven, Nat.add_zero]
        omega
      · rw [hodd, Nat.add_one_mul]
        omega

/-- No power of two is passed by rounding: it is itself a binary64 value, and the nearest one is not further off. -/
theorem le_two_pow_of_nearestEven {n r k : Nat} (h : NearestEven n r) (hn : n ≤ 2 ^ k) : r ≤ 2 ^ k := by
  obtain ⟨-, hnear, -⟩ := h
  have := hnear (2 ^ k) ⟨1, k, by decide, (Nat.one_mul _).symm⟩
  unfold distance at this
  omega

/-! ### The binary64 pattern (R87) -/

/-- A word whose fields are the biased exponent and the fraction of a number has its binary64 pattern. -/
theorem bitsOf_of_fields {n e f : Nat} {b : Scalar} (hb : b.toNat = e * 2 ^ 52 + f) (hf : f < 2 ^ 52) (hpos : 0 < e)
    (he : e < 2047) (hval : (2 ^ 52 + f) * 2 ^ e = n * 2 ^ 1075) : BitsOf n b := by
  have hsign : b.getLsbD 63 = false := Nat.testBit_lt_two_pow (by omega)
  have hexp : (b.extractLsb' 52 11).toNat = e := by
    rw [BitVec.extractLsb'_toNat, Nat.shiftRight_eq_div_pow]
    omega
  have hfrac : (b.extractLsb' 0 52).toNat = f := by
    rw [BitVec.extractLsb'_toNat, Nat.shiftRight_zero]
    omega
  exact .inr ⟨hsign, by rwa [hexp], by rwa [hexp], by rwa [hexp, hfrac]⟩

/-- A binary64 value has at most 52 bits below its top one, so the division that scales it to 53 bits is exact. -/
theorem two_pow_log2_dvd {n : Nat} (hn : n ≠ 0) (hb : IsBinary64 n) : 2 ^ n.log2 ∣ n * 2 ^ 52 := by
  obtain ⟨q, k, hq, rfl⟩ := hb
  have hlog : (q * 2 ^ k).log2 < 53 + k := by
    rw [Nat.log2_lt hn, pow_add]
    exact Nat.mul_lt_mul_of_pos_right hq (by positivity)
  rw [Nat.mul_assoc, ← pow_add]
  exact Dvd.dvd.mul_left (pow_dvd_pow 2 (by omega)) q

/-- The 53 significant bits of a binary64 value, the top one set. -/
theorem exists_significand {n : Nat} (hn : n ≠ 0) (hb : IsBinary64 n) :
    ∃ c, n * 2 ^ 52 = 2 ^ n.log2 * c ∧ 2 ^ 52 ≤ c ∧ c < 2 ^ 53 := by
  obtain ⟨c, hc⟩ := two_pow_log2_dvd hn hb
  refine ⟨c, hc, ?_, ?_⟩
  · refine Nat.le_of_mul_le_mul_left ?_ (Nat.two_pow_pos n.log2)
    rw [← hc]
    exact Nat.mul_le_mul_right _ (Nat.log2_self_le hn)
  · refine Nat.lt_of_mul_lt_mul_left (a := 2 ^ n.log2) ?_
    calc 2 ^ n.log2 * c = n * 2 ^ 52 := hc.symm
      _ < 2 ^ (n.log2 + 1) * 2 ^ 52 := Nat.mul_lt_mul_of_pos_right Nat.lt_log2_self (by decide)
      _ = 2 ^ n.log2 * 2 ^ 53 := by rw [pow_succ, Nat.mul_assoc]; rfl

/-- The exponent of a number up to `2^k` fits its field. -/
theorem bitsOf_bits64 {n k : Nat} (hb : IsBinary64 n) (hn : n ≤ 2 ^ k) (hk : k < 1024) : BitsOf n (bits64 n) := by
  obtain rfl | hne := eq_or_ne n 0
  · exact .inl ⟨rfl, rfl⟩
  · have hlog : n.log2 ≤ k := (Nat.pow_le_pow_iff_right Nat.one_lt_two).1 ((Nat.log2_self_le hne).trans hn)
    obtain ⟨c, hc, hlow, hhigh⟩ := exists_significand hne hb
    refine bitsOf_of_fields (e := 1023 + n.log2) (f := c - 2 ^ 52) ?_ (by omega) (by omega) (by omega) ?_
    · rw [bits64, if_neg hne, hc, Nat.mul_div_cancel_left _ (by positivity), BitVec.toNat_ofNat]
      omega
    · calc (2 ^ 52 + (c - 2 ^ 52)) * 2 ^ (1023 + n.log2) = 2 ^ n.log2 * c * 2 ^ 1023 := by
            rw [Nat.add_sub_cancel' hlow, Nat.add_comm 1023, pow_add, ← Nat.mul_assoc, Nat.mul_comm c]
        _ = n * 2 ^ 1075 := by rw [← hc, Nat.mul_assoc, ← pow_add]

/-! ### ToDouble (R87, R88) -/

theorem doubleSum_succ (a : Value) (i : Nat) :
    doubleSum a (i + 1) = roundNearestEven (doubleSum a i + a.toNat / 2 ^ (32 * i) % 2 ^ 32 * 2 ^ (32 * i)) := by
  rw [doubleSum, limb_toNat]

theorem nearestEven_doubleSum_succ (a : Value) (i : Nat) :
    NearestEven (doubleSum a i + a.toNat / 2 ^ (32 * i) % 2 ^ 32 * 2 ^ (32 * i)) (doubleSum a (i + 1)) := by
  rw [doubleSum_succ]
  exact nearestEven_roundNearestEven _

/-- The words below index `i` add up to at most `2^(32i)`, which rounding does not pass. -/
theorem doubleSum_le (a : Value) (i : Nat) : doubleSum a i ≤ 2 ^ (32 * i) := by
  induction i with
  | zero => exact Nat.zero_le _
  | succ i ih =>
    refine le_two_pow_of_nearestEven (nearestEven_doubleSum_succ a i) ?_
    have hword : a.toNat / 2 ^ (32 * i) % 2 ^ 32 + 1 ≤ 2 ^ 32 := Nat.mod_lt _ (by decide)
    calc doubleSum a i + a.toNat / 2 ^ (32 * i) % 2 ^ 32 * 2 ^ (32 * i)
        ≤ (a.toNat / 2 ^ (32 * i) % 2 ^ 32 + 1) * 2 ^ (32 * i) := by
          rw [Nat.add_one_mul (_ % _), Nat.add_comm]
          exact Nat.add_le_add_left ih _
      _ ≤ 2 ^ 32 * 2 ^ (32 * i) := Nat.mul_le_mul_right _ hword
      _ = 2 ^ (32 * (i + 1)) := by rw [two_pow_next_word, Nat.mul_comm]

/-- Below 2^53 nothing is rounded off: a partial sum is the value's low words. -/
theorem doubleSum_of_lt {a : Value} (ha : a.toNat < 2 ^ 53) (i : Nat) : doubleSum a i = a.toNat % 2 ^ (32 * i) := by
  induction i with
  | zero => rw [Nat.mul_zero, pow_zero, Nat.mod_one]; rfl
  | succ i ih =>
    rw [doubleSum_succ, ih, Nat.mul_comm _ (2 ^ (32 * i)), ← Nat.mod_mul, ← two_pow_next_word]
    exact roundNearestEven_of_lt ((Nat.mod_le _ _).trans_lt ha)

theorem bitsOf_toDouble (a : Value) : BitsOf (doubleSum a 8) (toDouble a) := by
  obtain ⟨hbinary, -, -⟩ := nearestEven_doubleSum_succ a 7
  exact bitsOf_bits64 hbinary (doubleSum_le a 8) (by decide)

/-- Settles O15: the partial sums are the model's own; each is the nearest binary64 value, and the exponent of the
last fits its field. -/
theorem toDoubleRoundsEachPartialSum : Obligations.ToDoubleRoundsEachPartialSum := by
  unfold Obligations.ToDoubleRoundsEachPartialSum
  exact fun a => ⟨doubleSum a, rfl, fun i _ => nearestEven_doubleSum_succ a i, bitsOf_toDouble a⟩

theorem sign_and_exponent_of_bitsOf {n : Nat} {b : Scalar} (h : BitsOf n b) :
    b.getLsbD 63 = false ∧ (b.extractLsb' 52 11).toNat < 2047 := by
  obtain ⟨-, rfl⟩ | ⟨hsign, -, hexp, -⟩ := h
  · decide
  · exact ⟨hsign, hexp⟩

/-- Settles O16: sign and exponent as in every pattern of a natural number; below 2^53 the last partial sum is the value. -/
theorem toDoubleIsFiniteAndExactBelow2Pow53 : Obligations.ToDoubleIsFiniteAndExactBelow2Pow53 := by
  unfold Obligations.ToDoubleIsFiniteAndExactBelow2Pow53
  refine ⟨fun a => ?_, by decide, by decide⟩
  obtain ⟨hsign, hexp⟩ := sign_and_exponent_of_bitsOf (bitsOf_toDouble a)
  refine ⟨hsign, hexp, fun ha => ?_⟩
  have hexact : doubleSum a 8 = a.toNat := by rw [doubleSum_of_lt ha, Nat.mod_eq_of_lt a.isLt]
  exact hexact ▸ bitsOf_toDouble a

/-! ### TODBL (R89) -/

theorem exec_todbl (d : SReg) (a : UReg) (s : State) : exec (.todbl d a) s = .next (s.setS d (toDouble (s.getU a))) := rfl

/-- Settles O14: the word is the encoder's, TODBL is one write of Sd, and the printed patterns are evaluated. -/
theorem todblWritesToDouble : Obligations.TodblWritesToDouble := by
  unfold Obligations.TodblWritesToDouble
  refine ⟨fun d a => ?_, fun d a s => ?_, by decide, by decide, by decide, by decide⟩
  · exact decode_wordDA (m := .todbl) rfl
  · exact exists_onlyS_of_exec (exec_todbl d a s) rfl

end Sys2Proof.Proofs
end

section
/-! The command words of format DI are the encoder's words: those of format RI without a second register (30_encoding.md
R55). -/

namespace Sys2Proof.Proofs

open Sys2Proof.Machine Sys2Proof.Laws

theorem wordDI_eq_wordDAI (p : Word) (d : BitVec 4) (imm : Imm16) : wordDI p d imm = wordDAI p d 0#4 imm := by
  simp [wordDI, wordDAI]

theorem encodeRI_zero (m : Mnemonic) (d : BitVec 4) (imm : Imm16) : encodeRI m d 0#4 imm = encodeDI m d imm := by
  apply BitVec.eq_of_toNat_eq
  rw [encodeRI_toNat, encodeDI_toNat, BitVec.toNat_zero, Nat.zero_mul, Nat.add_zero]

/-- A command whose word is its format DI encoding is read from the word its rule writes. -/
theorem decode_wordDI {i : Instr} {m : Mnemonic} {d : BitVec 4} {imm : Imm16} (h : encode i = encodeDI m d imm) :
    decode (wordDI (m.op.setWidth 32) d imm) = .ok i := by
  rw [wordDI_eq_wordDAI, wordDAI_eq_encodeRI, encodeRI_zero, ← h, decode_encode]

end Sys2Proof.Proofs
end

section
/-! The commands that move a value or load a scalar (45_convert.md R90 to R94). -/

namespace Sys2Proof.Proofs

open Sys2Proof.Machine Sys2Proof.Laws

/-! ### MOVU, SETU and GETLO (R90 to R92) -/

theorem exec_movu (d a : UReg) (s : State) : exec (.movu d a) s = .next (s.setU d (s.getU a)) := rfl

theorem exec_getlo (d : SReg) (a : UReg) (s : State) : exec (.getlo d a) s = .next (s.setS d (low64 (s.getU a))) := rfl

/-- Words 1 and 0 side by side are the low 64 bits. -/
theorem low64_eq_ofNat (v : Value) : low64 v = BitVec.ofNat 64 (v.toNat % 2 ^ 64) := by
  have hjoined : low64 v = v.extractLsb' 0 64 := BitVec.extractLsb'_append_extractLsb'_eq_extractLsb' rfl
  rw [hjoined]
  apply BitVec.eq_of_toNat_eq
  rw [BitVec.extractLsb'_toNat, Nat.shiftRight_zero, BitVec.toNat_ofNat, Nat.mod_mod]

/-- Settles O17: the words are the encoder's, and each command is one write of its destination. -/
theorem moveCommandsCopyValues : Obligations.MoveCommandsCopyValues := by
  unfold Obligations.MoveCommandsCopyValues
  refine ⟨fun d a => ?_, fun d a => ?_, fun d a => ?_, fun d a s => ?_, fun d a s => ?_, fun d a s => ?_⟩
  · exact decode_wordDA (m := .movu) rfl
  · exact decode_wordDA (m := .setu) rfl
  · exact decode_wordDA (m := .getlo) rfl
  · exact exists_onlyU_of_exec (exec_movu d a s) rfl
  · exact exists_onlyU_of_exec (exec_setu d a s) (BitVec.ofNat_toNat ..).symm
  · exact exists_onlyS_of_exec (exec_getlo d a s) (low64_eq_ofNat _)

/-! ### SLI and SLIH (R93, R94) -/

/-- The scalar shifted by a half-word loses its top 16 bits, and the immediate takes the place of the zeros shifted in. -/
theorem shiftIn_eq_append (v : Scalar) (imm : Imm16) : shiftIn v imm = v.extractLsb' 0 48 ++ imm := by
  have himm := imm_lt imm
  apply BitVec.eq_of_toNat_eq
  rw [BitVec.toNat_append, ← Nat.shiftLeft_add_eq_or_of_lt imm.isLt, Nat.shiftLeft_eq, BitVec.extractLsb'_toNat,
    Nat.shiftRight_zero, shiftIn, BitVec.toNat_ofNat]
  omega

/-- Settles O18: the words are the encoder's, and each command is one write of Sd. -/
theorem immediateLoadsFillAScalar : Obligations.ImmediateLoadsFillAScalar := by
  unfold Obligations.ImmediateLoadsFillAScalar
  refine ⟨fun d imm => ?_, fun d imm => ?_, fun d imm s => ?_, fun d imm s => ?_⟩
  · exact decode_wordDI (m := .sli) rfl
  · exact decode_wordDI (m := .slih) rfl
  · exact exists_onlyS_of_exec (exec_sli d imm s) (BitVec.ofNat_toNat ..).symm
  · exact ⟨_, exec_slih d imm s, onlyS_setS d _ s, shiftIn_eq_append _ imm⟩

end Sys2Proof.Proofs
end

section
/-! Add, Sub and Not as the arithmetic of 256-bit words, their three commands, and the block-proof identity
(46_addsub.md). -/

namespace Sys2Proof.Proofs

open Sys2Proof.Machine Sys2Proof.Laws

/-! ### Sub and Not in the ring of 256-bit words (R95) -/

theorem subValue_eq_sub (a b : Value) : subValue a b = a - b := by
  have ha := a.isLt
  have hb := b.isLt
  apply BitVec.eq_of_toNat_eq
  rw [subValue, BitVec.toNat_ofInt, BitVec.toNat_sub]
  omega

theorem notValue_eq_not (a : Value) : notValue a = ~~~ a := by
  apply BitVec.eq_of_toNat_eq
  rw [notValue, BitVec.toNat_ofNat, BitVec.toNat_not]
  omega

/-! ### ADD, SUB and NOT (R97 to R99) -/

theorem exec_add (d a b : UReg) (s : State) : exec (.add d a b) s = .next (s.setU d (addValue (s.getU a) (s.getU b))) := rfl

theorem exec_not (d a : UReg) (s : State) : exec (.not d a) s = .next (s.setU d (notValue (s.getU a))) := rfl

/-- Settles O19: the words are the encoder's, and each command is one write of Ud. -/
theorem additiveCommandsComputeModulo2Pow256 : Obligations.AdditiveCommandsComputeModulo2Pow256 := by
  unfold Obligations.AdditiveCommandsComputeModulo2Pow256
  refine ⟨fun d a b => ?_, fun d a b => ?_, fun d a => ?_, fun d a b s => ?_, fun d a b s => ?_, fun d a s => ?_⟩
  · exact decode_wordDAB (m := .add) rfl
  · exact decode_wordDAB (m := .sub) rfl
  · exact decode_wordDA (m := .not) rfl
  · exact exists_onlyU_of_exec (exec_add d a b s) (addValue_eq_add _ _)
  · exact exists_onlyU_of_exec (exec_sub d a b s) (subValue_eq_sub _ _)
  · exact exists_onlyU_of_exec (exec_not d a s) (notValue_eq_not _)

/-! ### The block proof (R96) -/

theorem addValue_one_toNat (a : Value) : (addValue a 1#256).toNat = (a.toNat + 1) % 2 ^ 256 := BitVec.toNat_ofNat ..

theorem addValue_one_toNat_of_lt {a : Value} (ha : a.toNat < 2 ^ 256 - 1) : (addValue a 1#256).toNat = a.toNat + 1 := by
  rw [addValue_one_toNat, Nat.mod_eq_of_lt (Nat.add_lt_of_lt_sub ha)]

theorem addValue_one_of_max {a : Value} (ha : a.toNat = 2 ^ 256 - 1) : addValue a 1#256 = 0#256 := by
  rw [addValue, ha]
  rfl

/-- The complement of T is 2^256 less the divisor T + 1, so its quotient is one less than that of 2^256. -/
theorem divide_notValue_addValue_one {T : Value} (hT : T.toNat < 2 ^ 256 - 1) :
    ∃ q, divide (notValue T) (addValue T 1#256) = some q ∧ q.toNat + 1 = 2 ^ 256 / (T.toNat + 1) := by
  have hdivisor := addValue_one_toNat_of_lt hT
  have hne : addValue T 1#256 ≠ 0#256 := ne_zero_of_toNat_lt ((Nat.lt_succ_self T.toNat).trans_eq hdivisor.symm)
  have hcomplement : (notValue T).toNat + (T.toNat + 1) = 2 ^ 256 := by
    rw [notValue_eq_not, BitVec.toNat_not]
    omega
  refine ⟨_, divide_of_ne_zero _ hne, ?_⟩
  rw [BitVec.toNat_udiv, hdivisor, ← Nat.add_div_right _ T.toNat.succ_pos, hcomplement]

/-- Settles O31: the laws are those of the ring of 256-bit words; the quotient of 2^256 fits a value unless T is 0, and for
the largest T the divisor wraps to 0. -/
theorem additiveLawsAndBlockProof : Obligations.AdditiveLawsAndBlockProof := by
  unfold Obligations.AdditiveLawsAndBlockProof
  refine ⟨subValue_self, fun a b => ?_, by decide, by decide, fun a => ?_, fun a => ?_, fun T hT => ?_, fun T hT => ?_⟩
  · rw [addValue_eq_add, subValue_eq_sub, BitVec.add_comm, BitVec.sub_add_cancel]
  · rw [addValue_eq_add, notValue_eq_not, subValue_eq_sub, BitVec.zero_sub, BitVec.neg_eq_not_add]
  · rw [notValue_eq_not, notValue_eq_not, BitVec.not_not]
  · obtain ⟨q, hdiv, hq⟩ := divide_notValue_addValue_one hT
    have hsucc : (addValue q 1#256).toNat = 2 ^ 256 / (T.toNat + 1) % 2 ^ 256 := by rw [addValue_one_toNat, hq]
    refine ⟨q, hdiv, hsucc, fun hne => ?_⟩
    rw [hsucc, Nat.mod_eq_of_lt]
    exact Nat.div_lt_self (by decide) (Nat.succ_lt_succ (toNat_pos_of_ne_zero hne))
  · have hwrap := addValue_one_of_max hT
    exact ⟨hwrap, by rw [hwrap, divide_zero]⟩

end Sys2Proof.Proofs
end

section
/-! The command words of format D are the encoder's words: those of format RR without a second register (30_encoding.md
R55). -/

namespace Sys2Proof.Proofs

open Sys2Proof.Machine Sys2Proof.Laws

theorem wordD_eq_wordDA (p : Word) (d : BitVec 4) : wordD p d = wordDA p d 0#4 := by
  simp [wordD, wordDA]

theorem encodeRR_zero (m : Mnemonic) (d : BitVec 4) : encodeRR m d 0#4 = encodeD m d := by
  apply BitVec.eq_of_toNat_eq
  rw [encodeRR_toNat, encodeD_toNat, BitVec.toNat_zero, Nat.zero_mul, Nat.zero_add]

/-- A command whose word is its format D encoding is read from the word its rule writes. -/
theorem decode_wordD {i : Instr} {m : Mnemonic} {d : BitVec 4} (h : encode i = encodeD m d) :
    decode (wordD (m.op.setWidth 32) d) = .ok i := by
  rw [wordD_eq_wordDA, wordDA_eq_wordDAB, wordDAB_eq_encodeRRR, encodeRRR_zero, encodeRR_zero, ← h, decode_encode]

end Sys2Proof.Proofs
end

section
/-! Decoding a compact target: its fields, the value and the two flags in plain arithmetic, and the commands CDEC and RDFL
(47_compact.md R100 to R102, R107, R109). -/

namespace Sys2Proof.Proofs

open Sys2Proof.Machine Sys2Proof.Laws

/-! ### RDFL (R109) -/

/-- The two flags as one number. -/
theorem flagsScalar_eq (s : State) :
    flagsScalar s = BitVec.ofNat 64 ((if s.ovf then 2 else 0) + (if s.neg then 1 else 0)) := by
  unfold flagsScalar
  generalize s.ovf = ovf, s.neg = neg
  revert ovf neg
  decide

theorem exec_rdfl (d : SReg) (s : State) : exec (.rdfl d) s = .next (s.setS d (flagsScalar s)) := rfl

/-- Settles O24: the word is the encoder's, RDFL is one write of Sd, and both flags are clear after reset. -/
theorem rdflCopiesTheFlags : Obligations.RdflCopiesTheFlags := by
  unfold Obligations.RdflCopiesTheFlags
  refine ⟨fun d => ?_, fun d s => ?_, fun d => ?_⟩
  · exact decode_wordD (m := .rdfl) rfl
  · exact exists_onlyS_of_exec (exec_rdfl d s) (flagsScalar_eq s)
  · exact ⟨_, exec_rdfl d _, getS_setS_same _ d _⟩

/-! ### The sign flag and the two flags of the decode (R100, R101) -/

theorem and_bit23_ne_zero_iff (x : Nat) : x &&& 0x800000 ≠ 0 ↔ x / 2 ^ 23 % 2 = 1 := by
  have hbit : x &&& 0x800000 = (x.testBit 23).toNat * 2 ^ 23 := Nat.and_two_pow x 23
  rw [hbit, Nat.toNat_testBit]
  omega

theorem signBit_eq (bits : Word) : signBit bits = decide (bits.toNat / 2 ^ 23 % 2 = 1) := by
  rw [signBit, Bool.eq_iff_iff, bne_iff_ne, decide_eq_true_iff, ← and_bit23_ne_zero_iff, Ne, ← BitVec.toNat_inj]
  rfl

theorem compactNeg_eq (bits : Word) :
    compactNeg bits = decide (mantissa bits ≠ 0 ∧ bits.toNat / 2 ^ 23 % 2 = 1) := by
  rw [compactNeg, signBit_eq, Bool.eq_iff_iff]
  simp

theorem compactOvf_eq (bits : Word) :
    compactOvf bits = decide (mantissa bits ≠ 0 ∧
      (exponent bits > 34 ∨ (mantissa bits > 0xff ∧ exponent bits > 33) ∨
        (mantissa bits > 0xffff ∧ exponent bits > 32))) := by
  rw [compactOvf, Bool.eq_iff_iff]
  simp [or_assoc]

theorem mantissa_lt (bits : Word) : mantissa bits < 2 ^ 23 := by
  rw [mantissa_eq]
  exact Nat.mod_lt _ (by decide)

/-! ### The value (R101) -/

theorem two_pow_eight_mul (k : Nat) : 2 ^ (8 * k) = 256 ^ k := pow_mul 2 8 k

theorem compactValue_of_le {bits : Word} (h : exponent bits ≤ 3) :
    compactValue bits = BitVec.ofNat 256 (mantissa bits / 2 ^ (8 * (3 - exponent bits))) := if_pos h

theorem compactValue_of_gt {bits : Word} (h : 3 < exponent bits) :
    compactValue bits = BitVec.ofNat 256 (mantissa bits * 2 ^ (8 * (exponent bits - 3))) := by
  have hfits := (mantissa_lt bits).trans (by decide : 2 ^ 23 < 2 ^ 256)
  rw [compactValue, if_neg h.not_ge, shiftLeft_eq_ofNat, BitVec.toNat_ofNat, Nat.mod_eq_of_lt hfits]

theorem compactValue_eq (bits : Word) :
    compactValue bits = BitVec.ofNat 256 (if exponent bits ≤ 3 then mantissa bits / 2 ^ (8 * (3 - exponent bits))
      else mantissa bits * 2 ^ (8 * (exponent bits - 3))) := by
  split
  next h => exact compactValue_of_le h
  next h => exact compactValue_of_gt (not_le.1 h)

/-! ### CDEC (R107) -/

theorem onlyUFlags_setU_setFlags (d : UReg) (v : Value) (n o : Bool) (s : State) :
    OnlyUFlags d v n o s ((s.setU d v).setFlags n o) := by
  obtain ⟨hd, hframe, -⟩ := onlyU_setU d v s
  exact ⟨hd, hframe, rfl, rfl, rfl⟩

theorem exec_cdec (d : UReg) (a : SReg) (s : State) :
    exec (.cdec d a) s = .next ((s.setU d (compactValue (compactOperand a s))).setFlags
      (compactNeg (compactOperand a s)) (compactOvf (compactOperand a s))) := rfl

theorem compactOperand_toNat (a : SReg) (s : State) : (compactOperand a s).toNat = (s.getS a).toNat % 2 ^ 32 :=
  lowHalf_toNat _

/-- Settles O20: the word is the encoder's, and CDEC is one write of Ud and of both flags, each as the rule computes it. -/
theorem cdecDecodesACompactTarget : Obligations.CdecDecodesACompactTarget := by
  unfold Obligations.CdecDecodesACompactTarget
  refine ⟨fun d a => ?_, fun d a s => ?_⟩
  · exact decode_wordDA (m := .cdec) rfl
  · simp only [← compactOperand_toNat, ← mantissa_eq, ← exponent_eq, ← compactNeg_eq, ← compactOvf_eq,
      ← compactValue_eq]
    exact ⟨_, exec_cdec d a s, onlyUFlags_setU_setFlags ..⟩

/-! ### OVF (R102) -/

/-- A nonzero factor fills the bytes that a power of 256 leaves below 2^256. -/
theorem two_pow_256_le_mul_iff {M : Nat} (hM : M ≠ 0) (k : Nat) : 2 ^ 256 ≤ M * 256 ^ k ↔ 256 ^ (32 - k) ≤ M := by
  have hbytes : 2 ^ 256 = 256 ^ 32 := by decide
  rw [hbytes]
  rcases le_or_gt k 32 with hk | hk
  · rw [← Nat.sub_add_cancel hk, pow_add, Nat.mul_le_mul_right_iff (by positivity), Nat.add_sub_cancel]
  · have hpow : 256 ^ 32 ≤ 256 ^ k := Nat.pow_le_pow_right (by decide) hk.le
    rw [Nat.sub_eq_zero_of_le hk.le]
    exact iff_of_true (hpow.trans (Nat.le_mul_of_pos_left _ (Nat.pos_of_ne_zero hM))) (Nat.pos_of_ne_zero hM)

/-- The source's thresholds are the powers of 256 that the exponent leaves room for. -/
theorem compactOvf_iff_pow_le (bits : Word) :
    compactOvf bits = true ↔ mantissa bits ≠ 0 ∧ 256 ^ (35 - exponent bits) ≤ mantissa bits := by
  have hM := mantissa_lt bits
  rw [compactOvf_eq, decide_eq_true_iff]
  refine and_congr_right fun hne => ?_
  generalize mantissa bits = M, exponent bits = E at *
  rcases (by omega : E ≤ 32 ∨ E = 33 ∨ E = 34 ∨ 35 ≤ E) with hE | rfl | rfl | hE
  · have hpow : 256 ^ 3 ≤ 256 ^ (35 - E) := Nat.pow_le_pow_right (by decide) (by omega)
    omega
  · omega
  · omega
  · rw [Nat.sub_eq_zero_of_le hE]
    omega

theorem compactOvf_iff (bits : Word) :
    compactOvf bits = true ↔
      mantissa bits ≠ 0 ∧ exponent bits > 3 ∧ mantissa bits * 256 ^ (exponent bits - 3) ≥ 2 ^ 256 := by
  have hM := mantissa_lt bits
  rw [compactOvf_iff_pow_le]
  refine and_congr_right fun hne => ?_
  rw [ge_iff_le, two_pow_256_le_mul_iff hne]
  rcases le_or_gt (exponent bits) 3 with hE | hE
  · have hpow : 256 ^ 32 ≤ 256 ^ (35 - exponent bits) := Nat.pow_le_pow_right (by decide) (by omega)
    omega
  · have hsub : 32 - (exponent bits - 3) = 35 - exponent bits := by omega
    rw [hsub]
    exact (and_iff_right hE).symm

theorem compactValue_toNat_of_gt {bits : Word} (h : 3 < exponent bits) :
    (compactValue bits).toNat = mantissa bits * 256 ^ (exponent bits - 3) % 2 ^ 256 := by
  rw [compactValue_of_gt h, BitVec.toNat_ofNat, two_pow_eight_mul]

/-- For E > 3 the flag is clear exactly when the untruncated value is below 2^256. -/
theorem compactOvf_eq_false_iff {bits : Word} (h : 3 < exponent bits) :
    compactOvf bits = false ↔ mantissa bits * 256 ^ (exponent bits - 3) < 2 ^ 256 := by
  rw [← Bool.not_eq_true, compactOvf_iff, ← not_le, not_iff_not]
  refine ⟨fun ⟨_, _, hge⟩ => hge, fun hge => ⟨fun hzero => ?_, h, hge⟩⟩
  rw [hzero, Nat.zero_mul] at hge
  exact absurd hge (by decide)

/-- Settles O21: the thresholds are the comparison with 2^256, and the remainder modulo 2^256 is the number itself exactly
below 2^256. -/
theorem overflowFlagMeansTheTargetDoesNotFit : Obligations.OverflowFlagMeansTheTargetDoesNotFit := by
  unfold Obligations.OverflowFlagMeansTheTargetDoesNotFit
  intro bits
  simp only [← mantissa_eq, ← exponent_eq]
  refine ⟨compactOvf_iff bits, fun hE => ⟨compactValue_toNat_of_gt hE, ?_⟩⟩
  rw [compactValue_toNat_of_gt hE, compactOvf_eq_false_iff hE, Nat.mod_eq_iff_lt (by decide)]

end Sys2Proof.Proofs
end

section
/-! Encoding a compact target: the mantissa is the value seen through a window of three bytes, and the bit length alone places
the normalised window (47_compact.md R105, R106); the command CENC (R108). -/

namespace Sys2Proof.Proofs

open Sys2Proof.Machine Sys2Proof.Laws

/-! ### The window of three bytes that ends below byte e -/

/-- The number `v` scaled so that its byte `e - 3` is the lowest one, with zeros below byte 0 of `v`. -/
def topBytes (v e : Nat) : Nat := v * 2 ^ (8 * 3) / 2 ^ (8 * e)

theorem topBytes_of_le (v : Nat) {e : Nat} (h : e ≤ 3) : topBytes v e = v * 2 ^ (8 * (3 - e)) := by
  have hsplit : 2 ^ (8 * 3) = 2 ^ (8 * (3 - e)) * 2 ^ (8 * e) := by
    rw [← pow_add, ← Nat.mul_add, Nat.sub_add_cancel h]
  rw [topBytes, hsplit, ← Nat.mul_assoc, Nat.mul_div_cancel _ (by positivity)]

theorem topBytes_of_ge (v : Nat) {e : Nat} (h : 3 ≤ e) : topBytes v e = v / 2 ^ (8 * (e - 3)) := by
  have hsplit : 2 ^ (8 * e) = 2 ^ (8 * (e - 3)) * 2 ^ (8 * 3) := by
    rw [← pow_add, ← Nat.mul_add, Nat.sub_add_cancel h]
  rw [topBytes, hsplit, Nat.mul_div_mul_right _ _ (by positivity)]

theorem topBytes_eq_ite (v e : Nat) :
    topBytes v e = if e ≤ 3 then v * 2 ^ (8 * (3 - e)) else v / 2 ^ (8 * (e - 3)) := by
  split
  next h => exact topBytes_of_le v h
  next h => exact topBytes_of_ge v (not_le.1 h).le

@[simp] theorem topBytes_zero (e : Nat) : topBytes 0 e = 0 := by simp [topBytes]

theorem topBytes_div_byte (v e : Nat) : topBytes v e / 2 ^ 8 = topBytes v (e + 1) := by
  rw [topBytes, Nat.div_div_eq_div_mul, ← pow_add]
  rfl

/-- How many bits are seen in the window depends on the bit length only. -/
theorem two_pow_le_topBytes_iff {v : Nat} (hv : v ≠ 0) (e k : Nat) : 2 ^ k ≤ topBytes v e ↔ k + 8 * e < v.size + 24 := by
  rw [topBytes, Nat.le_div_iff_mul_le (by positivity), ← pow_add, ← Nat.lt_size, ← Nat.shiftLeft_eq, Nat.size_shiftLeft hv]

theorem topBytes_lt {v e k : Nat} (h : v.size + 24 ≤ k + 8 * e) : topBytes v e < 2 ^ k := by
  rcases eq_or_ne v 0 with rfl | hv
  · simp
  · rw [← not_le, two_pow_le_topBytes_iff hv]
    exact h.not_gt

/-! ### The normalised exponent and mantissa in closed form -/

/-- The exponent of the compact form of `v`, after normalisation. -/
def encodedExponent (v : Nat) : Nat := if v = 0 then 0 else v.size / 8 + 1

/-- The mantissa of the compact form of `v`, after normalisation. -/
def encodedMantissa (v : Nat) : Nat := topBytes v (encodedExponent v)

theorem encodedExponent_of_ne_zero {v : Nat} (hv : v ≠ 0) : encodedExponent v = v.size / 8 + 1 := if_neg hv

theorem encodedExponent_le {v : Nat} (h : v < 2 ^ 256) : encodedExponent v ≤ 33 := by
  have hsize := Nat.size_le.2 h
  unfold encodedExponent
  split <;> omega

theorem encodedMantissa_lt (v : Nat) : encodedMantissa v < 2 ^ 23 := by
  rcases eq_or_ne v 0 with rfl | hv
  · simp [encodedMantissa]
  · apply topBytes_lt
    rw [encodedExponent_of_ne_zero hv]
    omega

theorem encodedMantissa_eq_zero_iff (v : Nat) : encodedMantissa v = 0 ↔ v = 0 := by
  refine ⟨fun h => by_contra fun hv => ?_, fun h => by rw [h, encodedMantissa, topBytes_zero]⟩
  have hlow : 2 ^ 15 ≤ encodedMantissa v := by
    rw [encodedMantissa, two_pow_le_topBytes_iff hv, encodedExponent_of_ne_zero hv]
    omega
  omega

/-- Bit 23 of the mantissa before normalisation is set exactly when the bit length fills whole bytes. -/
theorem encodedExponent_eq_ite (v : Nat) :
    encodedExponent v = if 2 ^ 23 ≤ topBytes v ((v.size + 7) / 8) then (v.size + 7) / 8 + 1 else (v.size + 7) / 8 := by
  rcases eq_or_ne v 0 with rfl | hv
  · simp [encodedExponent]
  · have hbit := two_pow_le_topBytes_iff hv ((v.size + 7) / 8) 23
    rw [encodedExponent_of_ne_zero hv]
    split <;> omega

theorem encodedMantissa_eq_ite (v : Nat) :
    encodedMantissa v = if 2 ^ 23 ≤ topBytes v ((v.size + 7) / 8) then topBytes v ((v.size + 7) / 8) / 2 ^ 8
      else topBytes v ((v.size + 7) / 8) := by
  rw [encodedMantissa, encodedExponent_eq_ite]
  split
  · exact (topBytes_div_byte _ _).symm
  · rfl

/-- The plain-arithmetic Encode has the closed-form fields. -/
theorem compactForm_eq (v : Nat) (neg : Bool) :
    compactForm v neg = encodedMantissa v + encodedExponent v * 2 ^ 24 +
      (if neg = true ∧ encodedMantissa v ≠ 0 then 2 ^ 23 else 0) := by
  simp only [encodedMantissa_eq_ite, encodedExponent_eq_ite, topBytes_eq_ite, compactForm]

/-! ### Encode (R105) -/

theorem encodeExponent_eq (v : Value) : encodeExponent v = (v.toNat.size + 7) / 8 := by rw [encodeExponent, bitLength_eq_size]

/-- Before normalisation the window ends above the highest nonzero byte. -/
theorem topBytes_encodeExponent_lt (v : Value) : topBytes v.toNat (encodeExponent v) < 2 ^ 24 := by
  apply topBytes_lt
  rw [encodeExponent_eq]
  omega

/-- No bit is lost to the 64-bit word in which the source forms the mantissa. -/
theorem encodeMantissa_eq (v : Value) : encodeMantissa v = topBytes v.toNat (encodeExponent v) := by
  have hlt := topBytes_encodeExponent_lt v
  rw [encodeMantissa]
  split
  next h =>
    rw [topBytes_of_le _ h] at hlt ⊢
    have hle := Nat.le_mul_of_pos_right v.toNat (Nat.two_pow_pos (8 * (3 - encodeExponent v)))
    rw [Nat.mod_eq_of_lt (by omega)]
  next h =>
    rw [topBytes_of_ge _ (not_le.1 h).le] at hlt ⊢
    rw [shiftRight_toNat, Nat.mod_eq_of_lt (by omega)]

theorem normalise_eq {m : Nat} (hm : m < 2 ^ 24) (e : Nat) :
    normalise m e = if 2 ^ 23 ≤ m then (m / 2 ^ 8, e + 1) else (m, e) := by
  have hbit : (m &&& 0x800000 != 0) = decide (2 ^ 23 ≤ m) := by
    rw [Bool.eq_iff_iff, bne_iff_ne, and_bit23_ne_zero_iff, decide_eq_true_iff]
    omega
  simp only [normalise, hbit, decide_eq_true_eq, Nat.shiftRight_eq_div_pow]

theorem normalise_encode (v : Value) :
    normalise (encodeMantissa v) (encodeExponent v) = (encodedMantissa v.toNat, encodedExponent v.toNat) := by
  rw [encodeMantissa_eq, normalise_eq (topBytes_encodeExponent_lt v), encodeExponent_eq, encodedMantissa_eq_ite,
    encodedExponent_eq_ite]
  split <;> rfl

/-- A multiple of a power of two that the other number is below is joined by `|` as by addition. -/
theorem or_mul_two_pow {m k : Nat} (h : m < 2 ^ k) (a : Nat) : m ||| a * 2 ^ k = m + a * 2 ^ k := by
  rw [Nat.or_comm, Nat.mul_comm, ← Nat.two_pow_add_eq_or_of_lt h, Nat.add_comm]

/-- The fields that `|` joins do not overlap. -/
theorem joinedFields_eq_add {m : Nat} (hm : m < 2 ^ 23) (e : Nat) (c : Bool) :
    m ||| e <<< 24 ||| (if c then 0x800000 else 0) = m + e * 2 ^ 24 + (if c then 2 ^ 23 else 0) := by
  have hsign : (if c then 0x800000 else 0) = c.toNat * 2 ^ 23 := by cases c <;> rfl
  have hlow : m + c.toNat * 2 ^ 23 < 2 ^ 24 := by
    have hc := c.toNat_le
    omega
  calc m ||| e <<< 24 ||| (if c then 0x800000 else 0)
      = m ||| c.toNat * 2 ^ 23 ||| e * 2 ^ 24 := by rw [hsign, Nat.shiftLeft_eq, Nat.or_right_comm]
    _ = m + c.toNat * 2 ^ 23 + e * 2 ^ 24 := by rw [or_mul_two_pow hm, or_mul_two_pow hlow]
    _ = m + e * 2 ^ 24 + (if c then 2 ^ 23 else 0) := by rw [← hsign, Nat.add_right_comm]; rfl

theorem compactForm_lt {v : Nat} (h : v < 2 ^ 256) (neg : Bool) : compactForm v neg < 2 ^ 32 := by
  have hm := encodedMantissa_lt v
  have he := encodedExponent_le h
  rw [compactForm_eq]
  split <;> omega

/-- The source's Encode, on bits, is the plain-arithmetic one. -/
theorem toNat_compactEncode (v : Value) (neg : Bool) : (compactEncode v neg).toNat = compactForm v.toNat neg := by
  have hfields : compactForm v.toNat neg = encodedMantissa v.toNat ||| encodedExponent v.toNat <<< 24 |||
      (if neg && encodedMantissa v.toNat != 0 then 0x800000 else 0) := by
    rw [joinedFields_eq_add (encodedMantissa_lt _), compactForm_eq]
    simp only [Bool.and_eq_true, bne_iff_ne]
  rw [compactEncode, normalise_encode]
  simp only
  rw [← hfields, BitVec.toNat_ofNat, Nat.mod_eq_of_lt (compactForm_lt v.isLt neg)]

/-! ### CENC (R108) -/

theorem zextWord_eq_ofNat (w : Word) : zextWord w = BitVec.ofNat 64 w.toNat := (BitVec.ofNat_toNat ..).symm

theorem negOperand_eq (b : SReg) (s : State) : negOperand b s = decide ((s.getS b).toNat % 2 = 1) := by
  rw [negOperand, BitVec.getLsbD, Nat.testBit_zero]

theorem exec_cenc (d : SReg) (a : UReg) (b : SReg) (s : State) :
    exec (.cenc d a b) s = .next (s.setS d (zextWord (compactEncode (s.getU a) (negOperand b s)))) := rfl

/-- Settles O22: the word is the encoder's, and CENC is one write of Sd with the plain-arithmetic compact form. -/
theorem cencEncodesAValue : Obligations.CencEncodesAValue := by
  unfold Obligations.CencEncodesAValue
  refine ⟨fun d a b => ?_, fun d a b s => ?_⟩
  · exact decode_wordDAB (m := .cenc) rfl
  · exact exists_onlyS_of_exec (exec_cenc d a b s) (by rw [zextWord_eq_ofNat, toNat_compactEncode, negOperand_eq])

end Sys2Proof.Proofs
end

section
/-! Encoding and decoding again: what survives is the value with the bytes below the normalised window cleared, and this value
has the same window (47_compact.md R106). -/

namespace Sys2Proof.Proofs

open Sys2Proof.Machine Sys2Proof.Laws

/-! ### The fields of an encoding -/

theorem mantissa_compactEncode (v : Value) (n : Bool) : mantissa (compactEncode v n) = encodedMantissa v.toNat := by
  have hm := encodedMantissa_lt v.toNat
  rw [mantissa_eq, toNat_compactEncode, compactForm_eq]
  split <;> omega

theorem exponent_compactEncode (v : Value) (n : Bool) : exponent (compactEncode v n) = encodedExponent v.toNat := by
  have hm := encodedMantissa_lt v.toNat
  rw [exponent_eq, toNat_compactEncode, compactForm_eq]
  split <;> omega

theorem mantissa_compactEncode_eq_zero_iff (v : Value) (n : Bool) : mantissa (compactEncode v n) = 0 ↔ v = 0#256 := by
  rw [mantissa_compactEncode, encodedMantissa_eq_zero_iff]
  exact BitVec.toNat_inj (y := 0#256)

theorem signBit_compactEncode (v : Value) (n : Bool) : signBit (compactEncode v n) = (n && decide (v ≠ 0#256)) := by
  have hm := encodedMantissa_lt v.toNat
  have hsign : signBit (compactEncode v n) = decide (n = true ∧ encodedMantissa v.toNat ≠ 0) := by
    rw [signBit_eq, decide_eq_decide, toNat_compactEncode, compactForm_eq]
    split
    next h => exact iff_of_true (by omega) h
    next h => exact iff_of_false (by omega) h
  simp [hsign, ← mantissa_compactEncode v n, mantissa_compactEncode_eq_zero_iff]

theorem compactNeg_compactEncode {v : Value} (hv : v ≠ 0#256) (n : Bool) : compactNeg (compactEncode v n) = n := by
  have hm := mt (mantissa_compactEncode_eq_zero_iff v n).1 hv
  simp [compactNeg, signBit_compactEncode, hm, hv]

theorem compactEncode_zero (n : Bool) : compactEncode 0#256 n = 0x00000000#32 := by
  cases n <;> decide

/-! ### What survives an encoding -/

/-- The value with the bytes below the normalised window cleared. -/
def survivingPart (v : Nat) : Nat := v / 2 ^ (8 * (encodedExponent v - 3)) * 2 ^ (8 * (encodedExponent v - 3))

theorem survivingPart_le (v : Nat) : survivingPart v ≤ v := Nat.div_mul_le_self _ _

theorem survivingPart_of_le {v : Nat} (h : encodedExponent v ≤ 3) : survivingPart v = v := by
  simp [survivingPart, Nat.sub_eq_zero_of_le h]

theorem survivingPart_of_gt {v : Nat} (h : 3 < encodedExponent v) :
    survivingPart v = encodedMantissa v * 2 ^ (8 * (encodedExponent v - 3)) := by
  rw [survivingPart, encodedMantissa, topBytes_of_ge v h.le]

theorem survivingPart_lt (v : Value) : survivingPart v.toNat < 2 ^ 256 := (survivingPart_le _).trans_lt v.isLt

theorem toNat_compactValue_compactEncode (v : Value) (n : Bool) :
    (compactValue (compactEncode v n)).toNat = survivingPart v.toNat := by
  have hlt := survivingPart_lt v
  have hM := mantissa_compactEncode v n
  have hE := exponent_compactEncode v n
  rcases le_or_gt (encodedExponent v.toNat) 3 with h | h
  · rw [compactValue_of_le (hE ▸ h), hM, hE, encodedMantissa, topBytes_of_le _ h, Nat.mul_div_cancel _ (by positivity),
      survivingPart_of_le h, BitVec.toNat_ofNat, Nat.mod_eq_of_lt v.isLt]
  · rw [compactValue_of_gt (hE ▸ h), hM, hE, ← survivingPart_of_gt h, BitVec.toNat_ofNat, Nat.mod_eq_of_lt hlt]

/-- Mantissa and exponent of an encoding stand for at most the value encoded. -/
theorem compactOvf_compactEncode (v : Value) (n : Bool) : compactOvf (compactEncode v n) = false := by
  have hE := exponent_compactEncode v n
  rw [← Bool.not_eq_true, compactOvf_iff]
  rintro ⟨-, hgt, hge⟩
  rw [hE] at hgt
  rw [hE, mantissa_compactEncode, ← two_pow_eight_mul, ← survivingPart_of_gt hgt] at hge
  exact hge.not_gt (survivingPart_lt v)

/-! ### Exactness -/

theorem survivingPart_eq_self_iff_dvd (v : Nat) : survivingPart v = v ↔ 2 ^ (8 * (encodedExponent v - 3)) ∣ v :=
  (Nat.dvd_iff_div_mul_eq _ _).symm

theorem div_le_encodedMantissa (v : Nat) : v / 2 ^ (8 * (encodedExponent v - 3)) ≤ encodedMantissa v := by
  rcases le_or_gt (encodedExponent v) 3 with h | h
  · rw [encodedMantissa, topBytes_of_le v h]
    exact (Nat.div_le_self _ _).trans (Nat.le_mul_of_pos_right _ (by positivity))
  · rw [encodedMantissa, topBytes_of_ge v h.le]

/-- The window of a number `m * 256^k` with a mantissa of 23 bits begins at byte `k` or below. -/
theorem encodedExponent_sub_le {m k : Nat} (hm : m < 2 ^ 23) : encodedExponent (m * 256 ^ k) - 3 ≤ k := by
  have hsize : (m * 256 ^ k).size ≤ 23 + 8 * k := by
    rw [Nat.size_le, pow_add, two_pow_eight_mul]
    exact Nat.mul_lt_mul_of_pos_right hm (by positivity)
  unfold encodedExponent
  split <;> omega

theorem survivingPart_eq_self_iff (v : Nat) : survivingPart v = v ↔ v = 0 ∨ ∃ m k, m < 2 ^ 23 ∧ v = m * 256 ^ k := by
  rw [survivingPart_eq_self_iff_dvd]
  constructor
  · intro hdvd
    refine .inr ⟨_, encodedExponent v - 3, (div_le_encodedMantissa v).trans_lt (encodedMantissa_lt v), ?_⟩
    rw [← two_pow_eight_mul, Nat.div_mul_cancel hdvd]
  · rintro (rfl | ⟨m, k, hm, rfl⟩)
    · exact dvd_zero _
    · rw [two_pow_eight_mul]
      exact Dvd.dvd.mul_left (pow_dvd_pow 256 (encodedExponent_sub_le hm)) m

/-! ### Encoding again -/

/-- Clearing the bits below bit `j` keeps a number at or above a power of two that is not below bit `j`. -/
theorem two_pow_le_div_mul {v s j : Nat} (hj : j ≤ s) (h : 2 ^ s ≤ v) : 2 ^ s ≤ v / 2 ^ j * 2 ^ j := by
  have hsplit : 2 ^ s = 2 ^ (s - j) * 2 ^ j := by rw [← pow_add, Nat.sub_add_cancel hj]
  rw [hsplit] at h ⊢
  exact Nat.mul_le_mul_right _ ((Nat.le_div_iff_mul_le (by positivity)).2 h)

theorem size_survivingPart (v : Nat) : (survivingPart v).size = v.size := by
  rcases eq_or_ne v 0 with rfl | hv
  · simp [survivingPart]
  · have hpos : 0 < v.size := Nat.size_pos.2 (Nat.pos_of_ne_zero hv)
    have htop : 2 ^ (v.size - 1) ≤ survivingPart v := by
      apply two_pow_le_div_mul
      · rw [encodedExponent_of_ne_zero hv]
        omega
      · exact Nat.lt_size.1 (by omega)
    have hge := Nat.lt_size.2 htop
    have hle := Nat.size_le_size (survivingPart_le v)
    omega

theorem encodedExponent_survivingPart (v : Nat) : encodedExponent (survivingPart v) = encodedExponent v := by
  have hsize := size_survivingPart v
  have hzero : survivingPart v = 0 ↔ v = 0 := by rw [← Nat.size_eq_zero, hsize, Nat.size_eq_zero]
  simp only [encodedExponent, hsize, hzero]

/-- The cleared bytes are not seen in the window. -/
theorem encodedMantissa_survivingPart (v : Nat) : encodedMantissa (survivingPart v) = encodedMantissa v := by
  rcases le_or_gt (encodedExponent v) 3 with h | h
  · rw [survivingPart_of_le h]
  · rw [encodedMantissa, encodedExponent_survivingPart, topBytes_of_ge _ h.le, survivingPart_of_gt h,
      Nat.mul_div_cancel _ (by positivity)]

theorem compactForm_survivingPart (v : Nat) (n : Bool) : compactForm (survivingPart v) n = compactForm v n := by
  rw [compactForm_eq, compactForm_eq, encodedMantissa_survivingPart, encodedExponent_survivingPart]

theorem compactEncode_compactValue_compactEncode (v : Value) (n : Bool) :
    compactEncode (compactValue (compactEncode v n)) n = compactEncode v n := by
  apply BitVec.eq_of_toNat_eq
  rw [toNat_compactEncode, toNat_compactValue_compactEncode, compactForm_survivingPart, toNat_compactEncode]

/-- Settles O23: each part is read off the closed-form fields, and decoding gives the surviving part of the value. -/
theorem compactRoundTripIsExactOn23BitMantissas : Obligations.CompactRoundTripIsExactOn23BitMantissas := by
  unfold Obligations.CompactRoundTripIsExactOn23BitMantissas
  intro v n
  refine ⟨fun he => ?_, ?_, ?_, ?_, signBit_compactEncode v n, ?_, compactOvf_compactEncode v n, compactEncode_zero n, ?_, ?_,
    fun hv => compactNeg_compactEncode hv n, ?_, compactEncode_compactValue_compactEncode v false⟩
  · rw [encodeMantissa_eq, topBytes_of_le _ he]
  · rw [encodeMantissa_eq]
    exact topBytes_encodeExponent_lt v
  · rw [normalise_encode]
    exact Nat.le_pred_of_lt (encodedMantissa_lt _)
  · rw [normalise_encode, mantissa_compactEncode]
  · rw [exponent_compactEncode]
    exact encodedExponent_le v.isLt
  · exact mt (mantissa_compactEncode_eq_zero_iff v n).1
  · rw [toNat_compactValue_compactEncode]
    exact survivingPart_le _
  · rw [← BitVec.toNat_inj, toNat_compactValue_compactEncode, survivingPart_eq_self_iff, ← BitVec.toNat_inj (y := 0#256)]
    rfl

end Sys2Proof.Proofs
end

section
/-! The two exceptions: which command raises, what a completion that raises writes, and how an error is kept and cleared
(60_exceptions.md). -/

namespace Sys2Proof.Proofs

open Sys2Proof.Machine Sys2Proof.Laws

/-! ### DivideByZero (R111) -/

theorem exec_div_of_zero (d a : UReg) {b : UReg} {s : State} (hb : s.getU b = 0#256) :
    exec (.div d a b) s = .next (raiseException .divideByZero (encode (.div d a b)) s) := by
  simp only [exec, execDiv, hb, divide_zero]

theorem wordDAB_div_eq_encode (d a b : UReg) : wordDAB 0x00000030#32 d a b = encode (.div d a b) :=
  wordDAB_eq_encodeRRR .div d a b

/-- A command writes the error state only by raising DivideByZero; every other effect of a command leaves it. -/
theorem exec_error_unchanged_or_div {i : Instr} {s t : State} (h : exec i s = .next t) :
    (t.err = s.err ∧ t.errcode = s.errcode ∧ t.errcmd = s.errcmd) ∨ ∃ d a b, i = .div d a b ∧ s.getU b = 0#256 := by
  rcases exec_effect i s with ⟨d, v, e⟩ | ⟨d, v, e⟩ | ⟨d, a, v, n, o, -, e⟩ | ⟨d, a, b, hi, hb, -⟩
  case inr.inr.inr => exact .inr ⟨d, a, b, hi, hb⟩
  all_goals
    rw [e] at h
    cases h
    exact .inl ⟨rfl, rfl, rfl⟩

/-- Settles O10: a zero divisor has no quotient, and no other effect of a command is on the error state. -/
theorem divideByZeroIsRaisedByDivOnly : Obligations.DivideByZeroIsRaisedByDivOnly := by
  unfold Obligations.DivideByZeroIsRaisedByDivOnly
  refine ⟨fun d a b s hb => ?_, fun i s t h hchanged => ?_⟩
  · rw [wordDAB_div_eq_encode, exec_div_of_zero d a hb]
    rfl
  · refine (exec_error_unchanged_or_div h).resolve_left ?_
    rintro ⟨herr, hcode, hcmd⟩
    simp [herr, hcode, hcmd] at hchanged

/-! ### Taking an exception (R112, R114) -/

/-- A decoded DIV with a zero divisor raises DivideByZero and records the word it was decoded from (R111; log 10). -/
theorem executeWord_of_div_zero {w : Word} {d a b : UReg} {s : State} (hw : decode w = .ok (.div d a b))
    (hb : s.getU b = 0#256) : executeWord w s = .next (raiseException .divideByZero w s) := by
  simp only [executeWord, hw, exec_div_of_zero d a hb, encode_div_of_decode hw]

theorem executeWord_of_decode_error {w : Word} {e : Illegal} (hw : decode w = .error e) (s : State) :
    executeWord w s = .next (raiseException .illegalCommand w s) :=
  executeWord_of_not_decodes (by simp [hw]) s

/-- The step in which a pending word completes is its execution and the two closing lines (R61). -/
theorem step_of_executeWord {s u : State} {w : Word} (hp : s.pending = some w) (hc : CompletesNext s)
    (hx : executeWord w s = .next u) : step s = .next (endCommand u) := by
  rw [step_completes s w hp ((completesNow_iff s).2 hc)]
  simp only [complete, hx]

/-- The error is precise (R114): beside the error state only the two closing lines of the completion write the unit. -/
theorem step_of_raise {s : State} {w : Word} {x : UnitException} (hp : s.pending = some w) (hc : CompletesNext s)
    (hx : executeWord w s = .next (raiseException x w s)) :
    ∃ t, step s = .next t ∧ t.inputs = s.inputs ∧ t.replies = s.replies ∧
      SameUnit { s with err := true, errcode := errorCode x, errcmd := w, pending := none, busy := false } t :=
  ⟨_, step_of_executeWord hp hc hx, rfl, rfl, rfl⟩

/-- Settles O36: both words raise, and the completion of a word that raises is precise. -/
theorem errorEntryIsPrecise : Obligations.ErrorEntryIsPrecise := by
  unfold Obligations.ErrorEntryIsPrecise
  exact ⟨fun s w e hp hc hw => step_of_raise hp hc (executeWord_of_decode_error hw s),
    fun s w d a b hp hc hw hb => step_of_raise hp hc (executeWord_of_div_zero hw hb)⟩

/-! ### The first error is kept (R115) -/

/-- Nothing is pending in `t`, and the error recorded in `s` is still recorded there or has been cleared. -/
def ErrorKeptOrCleared (s t : State) : Prop :=
  t.pending = none ∧
    ((t.err = true ∧ t.errcode = s.errcode ∧ t.errcmd = s.errcmd) ∨ (t.err = false ∧ t.errcode = 0#4 ∧ t.errcmd = 0#32))

/-- In a state of the invariant an error is recorded only while nothing is pending (R60). -/
theorem pending_eq_none_of_err {s : State} (h : s.Inv) (herr : s.err = true) : s.pending = none := by
  obtain ⟨-, -, hpending⟩ := h
  rcases hpending with ⟨hnone, -⟩ | ⟨-, hclear, -⟩
  · exact hnone
  · rw [herr] at hclear
    cases hclear

theorem errorKeptOrCleared_of_sameUnit {s t : State} (hp : s.pending = none) (herr : s.err = true) (h : SameUnit s t) :
    ErrorKeptOrCleared s t := by
  have hunit : t.toUnitState = s.toUnitState := h
  rw [ErrorKeptOrCleared, hunit]
  exact ⟨hp, .inl ⟨herr, rfl, rfl⟩⟩

theorem errorKeptOrCleared_resetUnit (s u : State) : ErrorKeptOrCleared s (resetUnit u) := ⟨rfl, .inr ⟨rfl, rfl, rfl⟩⟩

/-- While an error is recorded no write is an acceptance, so a write leaves the error or clears it. -/
theorem errorKeptOrCleared_writeReg {s : State} (hp : s.pending = none) (herr : s.err = true) (g : WindowReg) (v : Word) :
    ErrorKeptOrCleared s (writeReg g v s) := by
  rcases writeReg_effect g v s with ⟨d, x, e⟩ | ⟨d, x, e⟩ | ⟨-, hclear, -⟩ | ⟨-, -, -, e⟩ | ⟨-, -, e⟩ | e
  case inr.inr.inl =>
    rw [herr] at hclear
    cases hclear
  all_goals rw [e]
  case inr.inr.inr.inl => exact ⟨hp, .inr ⟨rfl, rfl, rfl⟩⟩
  case inr.inr.inr.inr.inl => exact errorKeptOrCleared_resetUnit s s
  all_goals exact ⟨hp, .inl ⟨herr, rfl, rfl⟩⟩

/-- A step with an error recorded and nothing pending is the host's; only a write of CTRL or a reset clears the error. -/
theorem errorKeptOrCleared_step {s t : State} (hp : s.pending = none) (herr : s.err = true) (h : step s = .next t) :
    ErrorKeptOrCleared s t := by
  cases step_effect h with
  | completion w u hsome =>
    rw [hp] at hsome
    cases hsome
  | idle => exact errorKeptOrCleared_of_sameUnit hp herr rfl
  | access a rest g =>
    cases a.kind with
    | read => exact errorKeptOrCleared_of_sameUnit hp herr (hostRead_toUnitState g { s with inputs := rest })
    | write v => exact errorKeptOrCleared_writeReg (s := { s with inputs := rest }) hp herr g v
  | waitIdle rest => exact errorKeptOrCleared_of_sameUnit hp herr (waitIdleRound_toUnitState rest s)
  | powerOnReset rest => exact errorKeptOrCleared_resetUnit s _

/-- A word with the opcode of DIV and a nonzero SBZ bit is no command (R58). -/
theorem not_decodes_of_div_sbz {w : Word} (hop : w.toNat % 2 ^ 8 = 0x30) (hsbz : w.toNat / 2 ^ 20 ≠ 0) :
    ¬ ∃ i, decode w = .ok i := by
  have hdiv : fieldOp w = Mnemonic.op .div := BitVec.eq_of_toNat_eq ((fieldOp_toNat w).trans hop)
  rintro ⟨i, hi⟩
  rw [decode_of_op hdiv, checked_eq_ok] at hi
  exact hsbz ((sbzZero_rrr w).1 hi.1)

/-- Settles O37: by the kind of the step; and a word that does not decode raises IllegalCommand before any divisor is
looked at. -/
theorem firstErrorIsKept : Obligations.FirstErrorIsKept := by
  unfold Obligations.FirstErrorIsKept
  refine ⟨fun s t h herr hst => errorKeptOrCleared_step (pending_eq_none_of_err h herr) herr hst, ?_⟩
  rintro w s (⟨e, hw⟩ | ⟨hop, hsbz⟩)
  · exact executeWord_of_decode_error hw s
  · exact executeWord_of_not_decodes (not_decodes_of_div_sbz hop hsbz) s

/-! ### A discarded command (R116) -/

theorem run_succ_of_step {s t : State} (h : step s = .next t) (k : Nat) : core.run (k + 1) s = core.run k t := by
  have hcore : core.step s = .next t := h
  simp only [Host.Core.run, hcore]

/-- Settles O40: the first step discards the word and leaves the unit idle with its error, the second is CLR_ERR. -/
theorem discardedCommandIsNotReplayed : Obligations.DiscardedCommandIsNotReplayed := by
  unfold Obligations.DiscardedCommandIsNotReplayed
  intro s v rest hs herr hin
  obtain ⟨hdiscard, -⟩ := cmdWriteIsAcceptedUnlessAnErrorIsRecorded s v _ hs hin
  obtain ⟨hctrl, -⟩ := ctrlWriteActsAndReadsZero { s with inputs := .access (memWrite 0x28C#10 1#32) :: rest } 1#32 rest hs
  obtain ⟨-, hclear, -⟩ := hctrl rfl
  rw [run_succ_of_step (hdiscard herr), run_succ_of_step (hclear rfl rfl)]
  rfl

end Sys2Proof.Proofs
end

section
/-! Which accesses are refused, and the host that keeps the BUSY duty (70_reset_and_hazards.md section 2). -/

namespace Sys2Proof.Proofs

open Sys2Proof.Machine Sys2Proof.Laws

/-! ### Refused accesses (R127, R129) -/

/-- The BUSY duty leaves the host one access: a read at the offset of STATUS (R127). -/
theorem allowedWhileBusy_iff {off : Offset} {g : WindowReg} (hreg : windowReg off = .ok g) (k : AccessKind) :
    allowedWhileBusy g k = true ↔ off = 0x284#10 ∧ k = .read := by
  rw [← windowReg_status_iff, hreg]
  simp [allowedWhileBusy]

theorem windowReg_ok_iff (off : Offset) : (∃ g, windowReg off = .ok g) ↔ off.toNat % 4 = 0 ∧ off.toNat < 0x29C := by
  have herror := windowReg_error_iff off
  cases hreg : windowReg off <;> simp [hreg] at herror ⊢ <;> omega

/-- The accesses with a meaning (R129): the host's, 32 bits wide, at a register of the window, and within the BUSY duty. -/
theorem exists_hostAccess_next_iff (a : Access) (s : State) :
    (∃ t, hostAccess a s = .next t) ↔
      a.agent = .host ∧ a.bytes = 4 ∧ (a.off.toNat % 4 = 0 ∧ a.off.toNat < 0x29C) ∧
        ((s.awaiting = true ∨ s.busy = true) → a.off = 0x284#10 ∧ a.kind = .read) := by
  constructor
  · rintro ⟨t, h⟩
    obtain ⟨hagent, hbytes, g, hreg, hduty, -⟩ := hostAccess_next h
    rw [allowedWhileBusy_iff hreg] at hduty
    refine ⟨hagent, hbytes, (windowReg_ok_iff a.off).1 ⟨g, hreg⟩, fun hbusy => hduty.resolve_left ?_⟩
    rwa [Bool.not_eq_false, Bool.or_eq_true]
  · rintro ⟨hagent, hbytes, hoff, hduty⟩
    obtain ⟨g, hreg⟩ := (windowReg_ok_iff a.off).2 hoff
    rw [← allowedWhileBusy_iff hreg] at hduty
    refine ⟨performAccess g a.kind s, ?_⟩
    simp only [hostAccess, hagent, hbytes, hreg]
    simpa using hduty

/-- No access faults, so an access is refused exactly when it is not carried out. -/
theorem exists_hostAccess_refused_iff (a : Access) (s : State) :
    (∃ r, hostAccess a s = .refused r) ↔ ¬ ∃ t, hostAccess a s = .next t := by
  rcases hostAccess_effect a s with ⟨r, h⟩ | ⟨g, -, -, h⟩ <;> simp [h]

/-- Settles O50: the step is the access, and the grounds are the denials of what gives an access its meaning. -/
theorem accessesAreRefusedExactlyOnTheGroundsListed : Obligations.AccessesAreRefusedExactlyOnTheGroundsListed := by
  unfold Obligations.AccessesAreRefusedExactlyOnTheGroundsListed
  intro s a rest hfirst hin
  have hagent : a.agent = .other ↔ a.agent ≠ .host := by cases a.agent <;> simp
  rw [step_access_of_hostFirst hfirst hin, exists_hostAccess_refused_iff, exists_hostAccess_next_iff, hagent]
  simp only [not_and_or, not_lt, Classical.not_imp, ne_eq, or_assoc]

/-! ### The host's turn, and the steps that are refused -/

theorem hostFirst_of_turn {s : State} (h : s.pending = none ∨ completesNow s = false) : HostFirst s :=
  h.imp_right fun hlater hwait => by simp [completesNow, hwait] at hlater

/-- While the host comes first and has an event left, the step is the host's (R48). -/
theorem step_hostTurn_of_hostFirst {s : State} {e : HostEvent} {rest : List HostEvent} (hfirst : HostFirst s)
    (hin : s.inputs = e :: rest) : step s = hostTurn s :=
  step_hostTurn s (hfirst.imp_right fun hwait => by simp [completesNow, hwait, hin])

/-- Executing a word has a next state and leaves the host's side as it was (R61; log 16). -/
theorem exists_executeWord_next (w : Word) (s : State) :
    ∃ t, executeWord w s = .next t ∧ t.toHostSide = s.toHostSide := by
  obtain ⟨t, hx, hhost, -⟩ := (actsOnRecordOnly_executeWord w).exists_next (s := s) (s' := s) rfl
  exact ⟨t, hx, hhost⟩

theorem toHostSide_executeWord {w : Word} {s u : State} (hu : executeWord w s = .next u) :
    u.toHostSide = s.toHostSide := by
  obtain ⟨t, ht, hhost⟩ := exists_executeWord_next w s
  rw [hu] at ht
  cases ht
  exact hhost

/-- A step has a next state, unless it is a refused access of the host. -/
theorem step_next_or_access_refused (s : State) :
    (∃ t, step s = .next t) ∨
      ∃ a rest, HostFirst s ∧ s.inputs = .access a :: rest ∧ ∃ r, step s = .refused r := by
  by_cases hturn : s.pending = none ∨ completesNow s = false
  · have hstep := step_hostTurn s hturn
    unfold hostTurn at hstep
    split at hstep
    next => exact .inl ⟨_, hstep⟩
    next a rest hin =>
      rw [hstep]
      rcases hostAccess_effect a { s with inputs := rest } with hrefused | ⟨g, -, -, hnext⟩
      · exact .inr ⟨a, rest, hostFirst_of_turn hturn, hin, hrefused⟩
      · exact .inl ⟨_, hnext⟩
    next => exact .inl ⟨_, hstep⟩
    next => exact .inl ⟨_, hstep⟩
  · rw [not_or, Bool.not_eq_false] at hturn
    obtain ⟨hpending, hnow⟩ := hturn
    obtain ⟨w, hp⟩ := Option.ne_none_iff_exists'.1 hpending
    obtain ⟨u, hx, -⟩ := exists_executeWord_next w s
    exact .inl ⟨_, step_of_executeWord hp ((completesNow_iff s).1 hnow) hx⟩

/-! ### The host that keeps the BUSY duty (R127, R128) -/

/-- The rest of the host's program keeps the BUSY duty from where the host stands. -/
def DutyKept (s : State) : Prop := keepsDuty s.awaiting s.inputs = true

theorem meaningful_iff (a : Access) :
    a.meaningful = true ↔ a.agent = .host ∧ a.bytes = 4 ∧ a.off.toNat % 4 = 0 ∧ a.off.toNat < 0x29C := by
  simp [Access.meaningful, and_assoc]

theorem readsStatus_iff (a : Access) : a.readsStatus = true ↔ a.off = 0x284#10 ∧ a.kind = .read := by
  simp [Access.readsStatus]

/-- A read of STATUS is no write of CMD. -/
theorem writesCmd_of_readsStatus {a : Access} (h : a.readsStatus = true) : a.writesCmd = false := by
  obtain ⟨-, hkind⟩ := (readsStatus_iff a).1 h
  simp [Access.writesCmd, hkind]

theorem keepsDuty_true_access {a : Access} {es : List HostEvent} :
    keepsDuty true (.access a :: es) = true ↔ a.meaningful = true ∧ a.readsStatus = true ∧ keepsDuty true es = true := by
  simp [keepsDuty, and_assoc]

theorem keepsDuty_false_access {a : Access} {es : List HostEvent} :
    keepsDuty false (.access a :: es) = true ↔ a.meaningful = true ∧ keepsDuty a.writesCmd es = true := by
  simp [keepsDuty]

theorem keepsDuty_waitIdle (b : Bool) (es : List HostEvent) : keepsDuty b (.waitIdle :: es) = keepsDuty false es := by
  cases b <;> rfl

theorem keepsDuty_powerOnReset (b : Bool) (es : List HostEvent) :
    keepsDuty b (.powerOnReset :: es) = keepsDuty false es := by cases b <;> rfl

/-- A program that keeps the duty within the interval keeps it outside, where more is allowed. -/
theorem keepsDuty_false_of_true {es : List HostEvent} (h : keepsDuty true es = true) : keepsDuty false es = true := by
  induction es with
  | nil => rfl
  | cons e es ih =>
    cases e with
    | access a =>
      obtain ⟨hmeaning, hstatus, hes⟩ := keepsDuty_true_access.1 h
      rw [keepsDuty_false_access, writesCmd_of_readsStatus hstatus]
      exact ⟨hmeaning, ih hes⟩
    | waitIdle => rwa [keepsDuty_waitIdle] at h ⊢
    | powerOnReset => rwa [keepsDuty_powerOnReset] at h ⊢

theorem keepsDuty_mono {b c : Bool} {es : List HostEvent} (h : keepsDuty b es = true) (hcb : c = true → b = true) :
    keepsDuty c es = true := by
  cases c with
  | true => rwa [hcb rfl] at h
  | false =>
    cases b with
    | false => exact h
    | true => exact keepsDuty_false_of_true h

/-- The next access of a program that keeps the duty: it has a meaning, and within the interval it reads STATUS. -/
theorem access_of_keepsDuty {b : Bool} {a : Access} {es : List HostEvent} (h : keepsDuty b (.access a :: es) = true) :
    a.meaningful = true ∧ (b = true → a.readsStatus = true) := by
  cases b with
  | false => exact ⟨(keepsDuty_false_access.1 h).1, nofun⟩
  | true =>
    obtain ⟨hmeaning, hstatus, -⟩ := keepsDuty_true_access.1 h
    exact ⟨hmeaning, fun _ => hstatus⟩

/-- What follows that access keeps the duty within the interval, if the program stands in it or the access opens it. -/
theorem rest_of_keepsDuty {b : Bool} {a : Access} {es : List HostEvent} (h : keepsDuty b (.access a :: es) = true) :
    keepsDuty (b || a.writesCmd) es = true := by
  cases b with
  | false => exact (keepsDuty_false_access.1 h).2
  | true =>
    obtain ⟨-, -, hes⟩ := keepsDuty_true_access.1 h
    exact hes

/-- In a state of the invariant BUSY = 1 only within the interval of the BUSY duty. -/
theorem awaiting_of_busy {s : State} (h : s.Inv) (hb : s.busy = true) : s.awaiting = true := by
  obtain ⟨hbusy, -, hpending⟩ := h
  rcases hpending with ⟨hnone, -⟩ | ⟨-, -, hawaiting⟩
  · simp [BusyIsPending, hb, hnone] at hbusy
  · exact hawaiting

/-- None of the grounds of a refusal (O50) holds for a host that keeps the duty. -/
theorem exists_step_next_of_dutyKept {s : State} (h : s.Inv) (hduty : DutyKept s) : ∃ t, step s = .next t := by
  refine (step_next_or_access_refused s).resolve_right ?_
  rintro ⟨a, rest, hfirst, hin, hrefused⟩
  rw [DutyKept, hin] at hduty
  obtain ⟨hmeaning, hstatus⟩ := access_of_keepsDuty hduty
  obtain ⟨hagent, hbytes, haligned, hmapped⟩ := (meaningful_iff a).1 hmeaning
  rcases (accessesAreRefusedExactlyOnTheGroundsListed s a rest hfirst hin).1 hrefused with
    hother | hwidth | hmisaligned | hreserved | ⟨hbusy, hnot⟩
  · rw [hagent] at hother
    cases hother
  · exact hwidth hbytes
  · exact hmisaligned haligned
  · exact absurd hmapped (by omega)
  · exact hnot ((readsStatus_iff a).1 (hstatus (hbusy.elim id (awaiting_of_busy h))))

/-! ### Every step keeps the duty -/

@[simp] theorem writeReg_inputs (g : WindowReg) (v : Word) (s : State) : (writeReg g v s).inputs = s.inputs := by
  rcases writeReg_effect g v s with ⟨d, x, e⟩ | ⟨d, x, e⟩ | ⟨-, -, e⟩ | ⟨-, -, -, e⟩ | ⟨-, -, e⟩ | e <;> rw [e] <;> rfl

@[simp] theorem performAccess_inputs (g : WindowReg) (k : AccessKind) (s : State) :
    (performAccess g k s).inputs = s.inputs := by
  cases k with
  | read => exact hostRead_inputs g s
  | write v => exact writeReg_inputs g v s

/-- A read opens no interval of the BUSY duty. -/
theorem awaiting_of_hostRead {g : WindowReg} {s : State} (h : (hostRead g s).awaiting = true) : s.awaiting = true := by
  cases g with
  | status =>
    simp only [hostRead, deliver_awaiting, observeStatus_awaiting, Bool.and_eq_true] at h
    obtain ⟨hawaiting, -⟩ := h
    exact hawaiting
  | _ => exact h

/-- A write of another register than CMD opens no interval of the BUSY duty. -/
theorem awaiting_of_writeReg {g : WindowReg} {v : Word} {s : State} (h : (writeReg g v s).awaiting = true) :
    s.awaiting = true ∨ g = .cmd := by
  rcases writeReg_effect g v s with ⟨d, x, e⟩ | ⟨d, x, e⟩ | ⟨hcmd, -, -⟩ | ⟨-, -, -, e⟩ | ⟨-, -, e⟩ | e
  case inr.inr.inl => exact .inr hcmd
  case inr.inr.inr.inr.inl =>
    rw [e] at h
    cases h
  all_goals
    rw [e] at h
    exact .inl h

/-- After an access the host stands in the interval only if it did before, or the access wrote CMD (R127). -/
theorem awaiting_of_performAccess {a : Access} {g : WindowReg} {s : State} (hreg : windowReg a.off = .ok g)
    (h : (performAccess g a.kind s).awaiting = true) : (s.awaiting || a.writesCmd) = true := by
  rw [Bool.or_eq_true]
  cases hkind : a.kind with
  | read =>
    rw [hkind] at h
    exact .inl (awaiting_of_hostRead h)
  | write v =>
    rw [hkind] at h
    refine (awaiting_of_writeReg h).imp_right ?_
    rintro rfl
    simp [Access.writesCmd, hkind, (windowReg_cmd_iff a.off).1 hreg]

/-- WaitIdle ends with the interval over, or stays first in the program with BUSY = 1 (R128). -/
theorem dutyKept_waitIdleRound {rest : List HostEvent} (h : keepsDuty false rest = true) (s : State) :
    DutyKept (waitIdleRound rest s) := by
  cases hb : s.busy with
  | true => simpa [DutyKept, waitIdleRound, hb, keepsDuty_waitIdle] using h
  | false => simpa [DutyKept, waitIdleRound, hostRead, hb] using h

theorem dutyKept_step {s t : State} (hduty : DutyKept s) (hst : step s = .next t) : DutyKept t := by
  unfold DutyKept at hduty
  cases step_effect hst with
  | completion w u _ _ hu =>
    rw [← toHostSide_executeWord hu] at hduty
    exact hduty
  | idle => exact hduty
  | access a rest g _ hin _ _ hreg =>
    rw [hin] at hduty
    rw [DutyKept, performAccess_inputs]
    exact keepsDuty_mono (rest_of_keepsDuty hduty) (awaiting_of_performAccess hreg)
  | waitIdle rest _ hin =>
    rw [hin, keepsDuty_waitIdle] at hduty
    exact dutyKept_waitIdleRound hduty s
  | powerOnReset rest _ hin =>
    rw [hin, keepsDuty_powerOnReset] at hduty
    exact hduty

/-- Settles O53, by induction on the number of steps: the invariant with the duty kept gives a next state and is kept. -/
theorem dutifulHostIsNeverRefused : Obligations.DutifulHostIsNeverRefused := by
  unfold Obligations.DutifulHostIsNeverRefused
  intro s k
  induction k generalizing s with
  | zero => exact fun _ _ => ⟨s, rfl⟩
  | succ k ih =>
    intro hinv hduty
    obtain ⟨t, ht⟩ := exists_step_next_of_dutyKept hinv hduty
    rw [SafeFor, run_succ_of_step ht]
    exact ih t (everyStepKeepsTheInvariant s t hinv ht) (dutyKept_step hduty ht)

end Sys2Proof.Proofs
end

section
/-! The latency of a command: its draw at the acceptance, and the WaitIdle that lasts until the completion
(70_reset_and_hazards.md R128, R131). -/

namespace Sys2Proof.Proofs

open Sys2Proof.Machine Sys2Proof.Laws

/-! ### WaitIdle (R128) -/

theorem step_waitIdle_of_hostFirst {s : State} {rest : List HostEvent} (hfirst : HostFirst s)
    (hin : s.inputs = .waitIdle :: rest) : step s = .next (waitIdleRound rest s) := by
  rw [step_hostTurn_of_hostFirst hfirst hin]
  simp only [hostTurn, hin]

/-- The state after all the reads that the latency lets return BUSY = 1. -/
def afterBusyReads (s : State) : State :=
  { s with wait := 0, replies := s.replies ++ List.replicate s.wait (statusWord s) }

theorem waitIdleRound_of_busy {s : State} {rest : List HostEvent} (hb : s.busy = true)
    (hin : s.inputs = .waitIdle :: rest) :
    waitIdleRound rest s = { s with wait := s.wait - 1, replies := s.replies ++ [statusWord s] } := by
  simp [waitIdleRound, hostRead, deliver, observeStatus, readReg, hb, hin, statusWord]

theorem waitIdleRound_of_not_busy {s : State} (rest : List HostEvent) (hb : s.busy = false) :
    waitIdleRound rest s =
      { s with inputs := rest, awaiting := false, wait := s.wait - 1, replies := s.replies ++ [statusWord s] } := by
  simp [waitIdleRound, hostRead, deliver, observeStatus, readReg, hb, statusWord]

theorem afterBusyReads_of_wait_zero {s : State} (h : s.wait = 0) : afterBusyReads s = s := by
  obtain ⟨u, inputs, replies, awaiting, wait, accepted⟩ := s
  obtain rfl : wait = 0 := h
  simp [afterBusyReads]

/-- One read of the busy status leaves the later ones to do. -/
theorem afterBusyReads_of_read {s : State} {n : Nat} (h : s.wait = n + 1) :
    afterBusyReads { s with wait := s.wait - 1, replies := s.replies ++ [statusWord s] } = afterBusyReads s := by
  simp [afterBusyReads, h, List.replicate_succ, statusWord]

/-- The busy rounds of a WaitIdle, by induction on their number. -/
theorem run_busyReads {s : State} {rest : List HostEvent} (hb : s.busy = true) (hin : s.inputs = .waitIdle :: rest)
    (k : Nat) : core.run (s.wait + k) s = core.run k (afterBusyReads s) := by
  induction hn : s.wait generalizing s with
  | zero => rw [Nat.zero_add, afterBusyReads_of_wait_zero hn]
  | succ n ih =>
    have hstep := step_waitIdle_of_hostFirst (.inr (by omega)) hin
    rw [waitIdleRound_of_busy hb hin] at hstep
    calc core.run (n + 1 + k) s
      _ = core.run (n + k + 1) s := by rw [Nat.add_right_comm]
      _ = core.run (n + k) { s with wait := s.wait - 1, replies := s.replies ++ [statusWord s] } :=
        run_succ_of_step hstep _
      _ = core.run k (afterBusyReads { s with wait := s.wait - 1, replies := s.replies ++ [statusWord s] }) :=
        ih hb hin (by simp [hn])
      _ = core.run k (afterBusyReads s) := by rw [afterBusyReads_of_read hn]

/-- Settles O54: the busy reads, the completion, which is the same after them as before, and the read that ends the loop. -/
theorem waitIdleReturnsAfterTheCompletion : Obligations.WaitIdleReturnsAfterTheCompletion := by
  unfold Obligations.WaitIdleReturnsAfterTheCompletion
  intro s w rest hp hb hin
  obtain ⟨hexecutes, -, -⟩ := unitActsOnTheRecordOnly s (afterBusyReads s) rfl
  obtain ⟨t, hx, hhost, hx'⟩ := hexecutes w
  refine ⟨t, hx, ?_⟩
  have hcompletion := step_of_executeWord (s := afterBusyReads s) hp (.inl rfl) hx'
  have hlast := step_waitIdle_of_hostFirst (s := endCommand { afterBusyReads s with toUnitState := t.toUnitState })
    (.inl rfl) hin
  rw [waitIdleRound_of_not_busy rest rfl] at hlast
  have haccepted : t.accepted = s.accepted := by rw [hhost]
  rw [run_busyReads hb hin, run_succ_of_step hcompletion, run_succ_of_step hlast]
  simp [Host.Core.run, afterBusyReads, endCommand, statusWord, haccepted]

/-! ### The draw of a latency (R131; log 2) -/

theorem wait_hostRead_le (g : WindowReg) (s : State) : (hostRead g s).wait ≤ s.wait := by
  cases g with
  | status => exact Nat.sub_le s.wait 1
  | _ => exact le_rfl

@[simp] theorem hostRead_accepted (g : WindowReg) (s : State) : (hostRead g s).accepted = s.accepted := by
  cases g <;> rfl

/-- A host write draws a latency by an acceptance only. -/
theorem draw_writeReg (g : WindowReg) (v : Word) (s : State) :
    ((writeReg g v s).accepted = s.accepted ∧ (writeReg g v s).wait ≤ s.wait) ∨
      (g = .cmd ∧ s.err = false ∧ (writeReg g v s).pending = some v ∧
        (writeReg g v s).wait = Config.latency s.accepted ∧ (writeReg g v s).accepted = s.accepted + 1) := by
  rcases writeReg_effect g v s with ⟨d, x, e⟩ | ⟨d, x, e⟩ | ⟨hg, herr, e⟩ | ⟨-, -, -, e⟩ | ⟨-, -, e⟩ | e <;> rw [e]
  case inr.inr.inl => exact .inr ⟨hg, herr, rfl, rfl, rfl⟩
  case inr.inr.inr.inr.inl => exact .inl ⟨rfl, Nat.zero_le _⟩
  all_goals exact .inl ⟨rfl, le_rfl⟩

/-- Settles O56: by the kind of the step; only a write can be an acceptance. -/
theorem noLatencyIsDrawnTwice : Obligations.NoLatencyIsDrawnTwice := by
  unfold Obligations.NoLatencyIsDrawnTwice
  intro s t hst
  cases step_effect hst with
  | completion w u _ _ hu =>
    have haccepted : u.accepted = s.accepted := congrArg HostSide.accepted (toHostSide_executeWord hu)
    exact .inl ⟨(endCommand_accepted u).trans haccepted, Nat.zero_le _⟩
  | idle => exact .inl ⟨rfl, le_rfl⟩
  | access a rest g _ hin hagent hbytes hreg =>
    cases hkind : a.kind with
    | read => exact .inl ⟨hostRead_accepted g _, wait_hostRead_le g { s with inputs := rest }⟩
    | write v =>
      refine (draw_writeReg g v { s with inputs := rest }).imp_right ?_
      rintro ⟨rfl, herr, hpending, hwait, haccepted⟩
      rw [eq_memWrite_cmd hagent hbytes hreg hkind] at hin
      exact ⟨v, rest, hin, herr, hpending, hwait, haccepted⟩
  | waitIdle rest => exact .inl ⟨hostRead_accepted .status s, wait_hostRead_le .status s⟩
  | powerOnReset rest => exact .inl ⟨rfl, Nat.zero_le _⟩

/-- Settles O39: in an idle state with ERR = 0 the step is the acceptance, whose latency is the next draw. -/
theorem acceptedCommandDrawsAFreeLatency : Obligations.AcceptedCommandDrawsAFreeLatency := by
  unfold Obligations.AcceptedCommandDrawsAFreeLatency
  intro s v rest hs hin herr
  rw [step_write_of_idle hs windowReg_cmd hin, writeReg, cmdWrite_accepted (s := { s with inputs := rest }) herr]
  exact ⟨_, rfl, rfl, rfl, rfl⟩

end Sys2Proof.Proofs
end

section
/-! The two resets (70_reset_and_hazards.md R125). -/

namespace Sys2Proof.Proofs

open Sys2Proof.Machine Sys2Proof.Laws

theorem step_powerOnReset_of_hostFirst {s : State} {rest : List HostEvent} (hfirst : HostFirst s)
    (hin : s.inputs = .powerOnReset :: rest) : step s = .next (resetUnit { s with inputs := rest }) := by
  rw [step_hostTurn_of_hostFirst hfirst hin]
  simp only [hostTurn, hin]

theorem step_softReset_of_idle {s : State} {v : Word} {rest : List HostEvent} (hs : Idle s) (h1 : v.getLsbD 1 = true)
    (hin : s.inputs = .access (memWrite 0x28C#10 v) :: rest) : step s = .next (resetUnit { s with inputs := rest }) := by
  rw [step_write_of_idle hs windowReg_ctrl hin, writeReg, ctrlWrite_softReset h1]

/-- Settles O43: either reset is the one operation `resetUnit`. -/
theorem bothResetsHaveTheSameEffect : Obligations.BothResetsHaveTheSameEffect := by
  unfold Obligations.BothResetsHaveTheSameEffect
  refine ⟨fun s rest hfirst hin => ⟨_, step_powerOnReset_of_hostFirst hfirst hin, rfl, rfl, rfl⟩,
    fun s rest v hs h1 => ?_⟩
  have ⟨hpending, _, _⟩ := hs
  have hpower := step_powerOnReset_of_hostFirst (s := { s with inputs := .powerOnReset :: rest }) (.inl hpending) rfl
  have hsoft := step_softReset_of_idle (s := { s with inputs := .access (memWrite 0x28C#10 v) :: rest }) hs h1 rfl
  exact hpower.trans hsoft.symm

end Sys2Proof.Proofs
end
